-- ==== Sys2Proof/Word.lean ====
section
/-! DEFINITION. The unsigned widths of the CHIP-8 core (spec/00_scope.md, section 4): u4, u8, u12 and u16.
Nothing is signed anywhere in this machine, so these four widths are all there is. -/

namespace Sys2Proof

/-- A 4-bit field of an instruction: a register index x or y, a height N (30_encoding.md R48), a key index. -/
abbrev Nibble := BitVec 4

/-- An 8-bit value: a general register, a timer, a memory byte, an immediate NN. -/
abbrev Byte := BitVec 8

/-- A 12-bit immediate address NNN (30_encoding.md R48). -/
abbrev Addr := BitVec 12

/-- A 16-bit value: an instruction word, and the storage of I, PC and a stack slot (10_state.md R16, R17, R19). -/
abbrev Word := BitVec 16

end Sys2Proof
end

