-- ==== Sys2Proof/Syntax.lean ====
section
/-! DEFINITION. The 35 instructions of the dispatch table 30_encoding.md R51, one constructor per row, in the
table's order. The operands are the fields of R48 and R50: register indices x and y, an immediate byte NN, an
address NNN, a height N. -/

namespace Sys2Proof

/-- One decoded instruction: a row of R51 with its operand fields. -/
inductive Instr where
  /-- 0NNN, SYS NNN (R59); the words 0x00E0 and 0x00EE are not SYS (R52). -/
  | sys (nnn : Addr)
  /-- 00E0, CLS (R88). -/
  | cls
  /-- 00EE, RET (R60). -/
  | ret
  /-- 1NNN, JP NNN (R61). -/
  | jp (nnn : Addr)
  /-- 2NNN, CALL NNN (R62). -/
  | call (nnn : Addr)
  /-- 3XNN, SE Vx, NN (R63). -/
  | seImm (x : Nibble) (nn : Byte)
  /-- 4XNN, SNE Vx, NN (R64). -/
  | sneImm (x : Nibble) (nn : Byte)
  /-- 5XY0, SE Vx, Vy (R65). -/
  | seReg (x y : Nibble)
  /-- 6XNN, LD Vx, NN (R69). -/
  | ldImm (x : Nibble) (nn : Byte)
  /-- 7XNN, ADD Vx, NN (R70). -/
  | addImm (x : Nibble) (nn : Byte)
  /-- 8XY0, LD Vx, Vy (R71). -/
  | ldReg (x y : Nibble)
  /-- 8XY1, OR Vx, Vy (R72). -/
  | orReg (x y : Nibble)
  /-- 8XY2, AND Vx, Vy (R73). -/
  | andReg (x y : Nibble)
  /-- 8XY3, XOR Vx, Vy (R74). -/
  | xorReg (x y : Nibble)
  /-- 8XY4, ADD Vx, Vy (R75). -/
  | addReg (x y : Nibble)
  /-- 8XY5, SUB Vx, Vy (R76). -/
  | subReg (x y : Nibble)
  /-- 8XY6, SHR Vx, Vy (R77). -/
  | shr (x y : Nibble)
  /-- 8XY7, SUBN Vx, Vy (R78). -/
  | subn (x y : Nibble)
  /-- 8XYE, SHL Vx, Vy (R79). -/
  | shl (x y : Nibble)
  /-- 9XY0, SNE Vx, Vy (R66). -/
  | sneReg (x y : Nibble)
  /-- ANNN, LD I, NNN (R82). -/
  | ldI (nnn : Addr)
  /-- BNNN, JP V0, NNN (R67). -/
  | jpV0 (nnn : Addr)
  /-- CXNN, RND Vx, NN (R80). -/
  | rnd (x : Nibble) (nn : Byte)
  /-- DXYN, DRW Vx, Vy, N (R90). -/
  | drw (x y n : Nibble)
  /-- EX9E, SKP Vx (R92). -/
  | skp (x : Nibble)
  /-- EXA1, SKNP Vx (R93). -/
  | sknp (x : Nibble)
  /-- FX07, LD Vx, DT (R94). -/
  | ldVxDt (x : Nibble)
  /-- FX0A, LD Vx, K (R95). -/
  | ldVxK (x : Nibble)
  /-- FX15, LD DT, Vx (R96). -/
  | ldDtVx (x : Nibble)
  /-- FX18, LD ST, Vx (R97). -/
  | ldStVx (x : Nibble)
  /-- FX1E, ADD I, Vx (R83). -/
  | addI (x : Nibble)
  /-- FX29, LD F, Vx (R84). -/
  | ldF (x : Nibble)
  /-- FX33, LD B, Vx (R85). -/
  | ldB (x : Nibble)
  /-- FX55, LD [I], Vx (R86). -/
  | ldMemVx (x : Nibble)
  /-- FX65, LD Vx, [I] (R87). -/
  | ldVxMem (x : Nibble)
deriving DecidableEq, Repr

end Sys2Proof
end

