-- ==== Sys2Proof/WellFormed.lean ====
section
/-! DEFINITION. Which terms of `Instr` stand for words of the machine. Every field has the width R48 gives it, so
the one thing left to check is R52: the words 0x00E0 and 0x00EE "decode as CLS and RET, and they never decode as
SYS". -/

namespace Sys2Proof

/-- R52: a SYS holds neither of the two addresses whose words are CLS and RET. -/
abbrev sysAddrOk (nnn : Addr) : Prop := nnn ≠ 0x0E0 ∧ nnn ≠ 0x0EE

/-- An instruction that some word of 30_encoding.md R51 stands for. -/
def WellFormed : Instr → Bool
  | .sys nnn => decide (sysAddrOk nnn)
  | .cls | .ret => true
  | .jp _ | .call _ | .ldI _ | .jpV0 _ => true
  | .seImm _ _ | .sneImm _ _ | .ldImm _ _ | .addImm _ _ | .rnd _ _ => true
  | .seReg _ _ | .sneReg _ _ => true
  | .ldReg _ _ | .orReg _ _ | .andReg _ _ | .xorReg _ _ | .addReg _ _ | .subReg _ _ => true
  | .shr _ _ | .subn _ _ | .shl _ _ => true
  | .drw _ _ _ => true
  | .skp _ | .sknp _ | .ldVxDt _ | .ldVxK _ | .ldDtVx _ | .ldStVx _ => true
  | .addI _ | .ldF _ | .ldB _ | .ldMemVx _ | .ldVxMem _ => true

end Sys2Proof
end

