-- ==== Sys2Proof/Config.lean ====
section
/-! DEFINITION. The parameters of 00_scope.md section 3: the sizes the source fixes (R5), the font's place and
bytes (R6, R7), the shift-source switch (R8) and the random byte (R9). What an implementation decides and what
the spec calls a draw have no body here: no proof can see their value. -/

namespace Sys2Proof

/-- `MEM_SIZE`: 4096 bytes, addresses 0x000-0xFFF (00_scope.md R5). -/
abbrev Config.memSize : Nat := 4096

/-- `PROG_BASE`: the program load address and the reset PC (00_scope.md R5). -/
abbrev Config.progBase : Nat := 0x200

/-- `STACK_DEPTH`: 16 saved PC values (00_scope.md R5; decision D34). -/
abbrev Config.stackDepth : Nat := 16

/-- `FB_W`: the framebuffer's width in pixels (00_scope.md R5). -/
abbrev Config.fbWidth : Nat := 64

/-- `FB_H`: the framebuffer's height in pixels (00_scope.md R5). -/
abbrev Config.fbHeight : Nat := 32

/-- `MAX_ROM` = `MEM_SIZE` - `PROG_BASE` = 3584 bytes (00_scope.md R5). -/
abbrev Config.maxRom : Nat := Config.memSize - Config.progBase

/-- `FONT_BASE` = 0x050 (00_scope.md R6, decision D2; the source says only "conventionally"). Log entry 5. -/
abbrev Config.fontBase : Nat := 0x050

/-- `FONT_SIZE`: 16 glyphs of 5 bytes (00_scope.md R5). -/
abbrev Config.fontSize : Nat := 80

/-- The conventional hexadecimal font of 10_state.md R32, the default value of `FONT_DATA` (00_scope.md R7, decision
D3). PRESUMED: the spec takes these bytes from general knowledge, not from the source. Log entry 4. -/
def Config.defaultFont : Vector Byte Config.fontSize :=
  ⟨([0xF0, 0x90, 0x90, 0x90, 0xF0] ++ [0x20, 0x60, 0x20, 0x20, 0x70] ++
    [0xF0, 0x10, 0xF0, 0x80, 0xF0] ++ [0xF0, 0x10, 0xF0, 0x10, 0xF0] ++
    [0x90, 0x90, 0xF0, 0x10, 0x10] ++ [0xF0, 0x80, 0xF0, 0x10, 0xF0] ++
    [0xF0, 0x80, 0xF0, 0x90, 0xF0] ++ [0xF0, 0x10, 0x20, 0x40, 0x40] ++
    [0xF0, 0x90, 0xF0, 0x90, 0xF0] ++ [0xF0, 0x90, 0xF0, 0x10, 0xF0] ++
    [0xF0, 0x90, 0xF0, 0x90, 0x90] ++ [0xE0, 0x90, 0xE0, 0x90, 0xE0] ++
    [0xF0, 0x80, 0x80, 0x80, 0xF0] ++ [0xE0, 0x90, 0x90, 0x90, 0xE0] ++
    [0xF0, 0x80, 0xF0, 0x80, 0xF0] ++ [0xF0, 0x80, 0xF0, 0x80, 0x80] : List Byte).toArray, rfl⟩

/-- A value of the parameter `FONT_DATA`: 80 glyph bytes, with the default that 00_scope.md R7 names. -/
structure FontData where
  bytes : Vector Byte Config.fontSize := Config.defaultFont
deriving DecidableEq, Repr, Inhabited

/-- Row `r` of glyph `d`, top row first (10_state.md R31). -/
def FontData.glyphRow (font : FontData) (d : Fin 16) (r : Fin 5) : Byte :=
  font.bytes[5 * d.val + r.val]'(by have := d.isLt; have := r.isLt; simp only [Config.fontSize]; omega)

/-- `FONT_DATA`, the named parameter of 00_scope.md R7 (decision D3). It has no body: a claim about the model holds for
every font, which is what D3 calls exact, and a claim about the default font takes
`Config.fontData.bytes = Config.defaultFont` as a premise. Log entry 4, safe. -/
opaque Config.fontData : FontData

/-- The two conventions for the source register of 8XY6 and 8XYE (00_scope.md R8). -/
inductive ShiftSrc where
  /-- The shift reads V[x], and the y field is ignored. -/
  | vx
  /-- The shift reads V[y]. -/
  | vy
deriving DecidableEq, Repr, Inhabited

/-- `SHIFT_SRC`, the configuration switch of 00_scope.md R8 (decision D4: OPEN, default `VX`). It has no body:
a claim about the model holds for both settings, which is what D4 calls exact. Log entry 3, safe. -/
opaque Config.shiftSrc : ShiftSrc

/-- `RNG`: the byte the n-th executed CXNN draws (00_scope.md R9; 60_exceptions.md R113; decision D24: "a free u8
input", "under no law"). A free value: it has no body, so no distribution and no sequence can be proved of it.
The index is `State.draws`, a counter of the model's own. Log entry 2, safe. -/
opaque Config.rng : Nat → Byte

end Sys2Proof
end

