-- ==== Sys2Proof/Machine/State.lean ====
section
/-! DEFINITION. The state of the core: the tuple of 10_state.md R12, one field per element, as plain data; the
recorded fatal errors of 60_exceptions.md R98; the reasons a step can stop; and the state after reset (R30, R118). -/

namespace Sys2Proof.Machine

/-- The recorded fatal error of 10_state.md R27: the (kind, addr) pairs that 60_exceptions.md R98 gives. -/
inductive FatalError where
  /-- CALL with SP = 16 (40_flow.md R62); no recorded value. -/
  | stackOverflow
  /-- RET with SP = 0 (40_flow.md R60); no recorded value. -/
  | stackUnderflow
  /-- An access past 0xFFF (20_memory.md R37); the lowest offending address, `max(base, 0x1000)`. -/
  | memOutOfRange (addr : Nat)
  /-- EX9E or EXA1 with a register value past 0x0F (44_timers_keys.md R91); that value. -/
  | keyIndexOutOfRange (v : Byte)
deriving DecidableEq, Repr

/-- `RUN` (10_state.md R27). -/
inductive RunState where
  /-- Steps execute. -/
  | running
  /-- A fatal error has halted the core: a Step changes nothing until Reset (60_exceptions.md R101). -/
  | halted
deriving DecidableEq, Repr

/-- Memory as data: (address, byte) pairs, addresses strictly rising, holding exactly the bytes that differ from
the reset contents (`Memory.wf`). Log entry 7. -/
abbrev Memory := List Host.Cell

/-- The framebuffer: 32 rows of 64 one-bit cells, row `y` holding the flat cells `64*y .. 64*y + 63` of
10_state.md R23, cell `x + 64*y` at bit `x`. Log entry 8. -/
abbrev Framebuffer := Vector (BitVec Config.fbWidth) Config.fbHeight

/-- The core's state: 10_state.md R12, "and nothing else", then one counter of the model's own. -/
structure State where
  /-- V0-VF (R13, R14). -/
  v : Vector Byte 16
  /-- I, the index register (R16). -/
  i : Word
  /-- PC; during an instruction, the address of its first byte (R17). -/
  pc : Word
  /-- SP, the number of saved return addresses, 0..16 (R18). -/
  sp : Fin (Config.stackDepth + 1)
  /-- STACK[0..15] (R19). -/
  stack : Vector Word Config.stackDepth
  /-- DT, the delay timer (R20). -/
  dt : Byte
  /-- ST, the sound timer (R21). -/
  st : Byte
  /-- MEM (R22). -/
  mem : Memory
  /-- FB (R23). -/
  fb : Framebuffer
  /-- CHANGED (R24). -/
  changed : Bool
  /-- KEY[0..15], true when pressed (R25). -/
  key : Vector Bool 16
  /-- AWAIT (R26). -/
  await : Bool
  /-- AWAIT_REG (R26). -/
  awaitReg : Nibble
  /-- RUN (R27). -/
  run : RunState
  /-- ERR (R27). -/
  err : Option FatalError
  /-- THE MODEL'S OWN, not the spec's: how many CXNN have drawn a random byte. It only selects the free value
  `Config.rng draws` (00_scope.md R9). DESIGN CHOICE, log entry 2. -/
  draws : Nat
deriving DecidableEq, Repr

/-- Why a step stops with a fault: for no reason at all. Every error of 60_exceptions.md R98 has an effect the
spec describes, so it is a next state (`State.raiseFatal`, or the PC advance of a decode error), and no
constructor is left to declare. Safe: nothing stops where the core goes on. Log entry 9. -/
inductive Fault where
deriving DecidableEq, Repr

/-- Why a step has no meaning. -/
inductive Refusal where
  /-- Raised by `exec` alone, for an instruction the model gives no meaning yet; no arm uses it now. Safe: the
  model stops where the core goes on. -/
  | notModelled (mnemonic : String)
deriving DecidableEq, Repr

/-- What an instruction's meaning answers. -/
abbrev Result := Host.Outcome State Fault Refusal

/-- The state right after Reset (10_state.md R30; 70_reset_and_hazards.md R118). PC, DT, ST, SP, FB and the font
are the source's values; the others are the spec's decision D25 (log entry 1). Memory lists nothing: an unlisted
address reads as its reset contents (`Memory.unlisted`). `draws` is the model's own (log entry 2). -/
def State.reset : State where
  v := Vector.replicate 16 0x00
  i := 0x0000
  pc := BitVec.ofNat 16 Config.progBase
  sp := 0
  stack := Vector.replicate Config.stackDepth 0x0000
  dt := 0
  st := 0
  mem := []
  fb := Vector.replicate Config.fbHeight 0
  changed := false
  key := Vector.replicate 16 false
  await := false
  awaitReg := 0
  run := .running
  err := none
  draws := 0

end Sys2Proof.Machine
end

