-- ==== Sys2Proof/Machine/Ops.lean ====
section
/-! DEFINITION. The named operations over memory, registers, stack, framebuffer and run state. Each rule's
pseudocode is written with these: every read and write of a piece of state goes through one of them. -/

namespace Sys2Proof.Machine

/-! ### Memory (20_memory.md) -/

/-- The reset contents of MEM[a] under a value of FONT_DATA: the font's bytes at FONT_BASE .. FONT_BASE+79 and zero
elsewhere (10_state.md R30, R31). -/
def Memory.resetByte (font : FontData) (a : Nat) : Byte :=
  if h : Config.fontBase ≤ a ∧ a < Config.fontBase + Config.fontSize then
    font.bytes[a - Config.fontBase]'(by omega)
  else 0

/-- What an address that the memory list does not hold reads as: its reset contents, under the model's FONT_DATA. -/
def Memory.unlisted (a : Nat) : Byte := Memory.resetByte Config.fontData a

/-- MEM[a]. -/
def Memory.read (m : Memory) (a : Nat) : Byte :=
  match m with
  | [] => Memory.unlisted a
  | (k, b) :: rest => if k = a then b else Memory.read rest a

/-- The list with the entry for `a` set to `b`, in address order. -/
def Memory.insert (m : Memory) (a : Nat) (b : Byte) : Memory :=
  match m with
  | [] => [(a, b)]
  | (k, c) :: rest =>
    if a < k then (a, b) :: (k, c) :: rest
    else if a = k then (a, b) :: rest
    else (k, c) :: Memory.insert rest a b

/-- The list without an entry for `a`. -/
def Memory.erase (m : Memory) (a : Nat) : Memory :=
  match m with
  | [] => []
  | (k, c) :: rest => if k = a then rest else (k, c) :: Memory.erase rest a

/-- MEM[a] <- b: a byte equal to the reset contents is not listed, so that equal memories are equal lists. -/
def Memory.write (m : Memory) (a : Nat) (b : Byte) : Memory :=
  if b = Memory.unlisted a then Memory.erase m a else Memory.insert m a b

/-- The canonical form: addresses strictly rising, all inside the 4096 bytes of 10_state.md R22, and no entry
equal to what an unlisted address reads as. -/
abbrev Memory.wf (m : Memory) : Prop :=
  m.Pairwise (fun c d => c.1 < d.1) ∧
    ∀ c ∈ m, c.1 < Config.memSize ∧ c.2 ≠ Memory.unlisted c.1

/-- `MemRead(addr, 1)` (20_memory.md R35); callers have established the range with `checkRange`. -/
def State.memRead (s : State) (a : Nat) : Byte := Memory.read s.mem a

/-- `MemWrite(addr, 1, v)` (20_memory.md R36); callers have established the range with `checkRange`. -/
def State.memWrite (a : Nat) (b : Byte) (s : State) : State := { s with mem := Memory.write s.mem a b }

/-- `CheckRange(addr, n)` (20_memory.md R37): the error to raise, if `addr + n - 1` passes 0xFFF. The address
is an unbounded natural, so the sum never wraps. -/
def checkRange (addr n : Nat) : Option FatalError :=
  if addr + n - 1 > 0xFFF then some (.memOutOfRange (max addr 0x1000)) else none

/-- Consecutive byte writes from `a` upwards, in the order of the pseudocode of R85 and R86. -/
def State.storeBytes (bytes : List Byte) (a : Nat) (s : State) : State :=
  match bytes with
  | [] => s
  | b :: rest => State.storeBytes rest (a + 1) (s.memWrite a b)

/-! ### General registers, I, PC, timers (10_state.md sections 2 to 4) -/

/-- V[x] (10_state.md R13). -/
def State.getV (s : State) (x : Nibble) : Byte := s.v[x.toNat]'x.isLt

/-- V[x] <- b (10_state.md R13): no register is hardwired. -/
def State.setV (x : Nibble) (b : Byte) (s : State) : State := { s with v := s.v.set x.toNat b x.isLt }

/-- VF <- f, the flag write (10_state.md R14). -/
def State.setFlag (f : Byte) (s : State) : State := s.setV 0xF#4 f

/-- I <- w (10_state.md R16). -/
def State.setI (w : Word) (s : State) : State := { s with i := w }

/-- PC <- w (10_state.md R17). -/
def State.setPc (w : Word) (s : State) : State := { s with pc := w }

/-- `advance`: PC <- PC + 2 (00_scope.md section 4). -/
def State.advance (s : State) : State := s.setPc (s.pc + 2)

/-- `skip` when the condition holds, `advance` when it does not (10_state.md R17). -/
def State.skipIf (c : Bool) (s : State) : State := if c then s.setPc (s.pc + 4) else s.advance

/-- DT <- b (10_state.md R20). -/
def State.setDt (b : Byte) (s : State) : State := { s with dt := b }

/-- ST <- b (10_state.md R21). -/
def State.setSt (b : Byte) (s : State) : State := { s with st := b }

/-- V[0], ..., V[n-1] loaded in ascending order, register k from the byte at `a + k` (42_index_memory.md R87). -/
def State.loadRegs (a : Nat) (n : Nat) (s : State) : State :=
  match n with
  | 0 => s
  | k + 1 => (State.loadRegs a k s).setV (BitVec.ofNat 4 k) (s.memRead (a + k))

/-! ### The stack (10_state.md R18, R19) -/

/-- CALL's stack half (40_flow.md R62): overflow at SP = 16, else STACK[SP] <- w and SP <- SP + 1. -/
def State.push (w : Word) (s : State) : Except FatalError State :=
  if h : s.sp.val < Config.stackDepth then
    .ok { s with stack := s.stack.set s.sp.val w h, sp := ⟨s.sp.val + 1, Nat.succ_lt_succ h⟩ }
  else .error .stackOverflow

/-- RET's stack half (40_flow.md R60): underflow at SP = 0, else SP <- SP - 1 and the value of STACK[SP]. -/
def State.pop (s : State) : Except FatalError (Word × State) :=
  if h : s.sp.val = 0 then .error .stackUnderflow
  else
    have hlt : s.sp.val - 1 < Config.stackDepth := by have := s.sp.isLt; omega
    .ok (s.stack[s.sp.val - 1], { s with sp := ⟨s.sp.val - 1, Nat.lt_succ_of_lt hlt⟩ })

/-! ### The framebuffer (10_state.md R23, R24) -/

/-- FB[idx], the flat cell of 10_state.md R23; there are 2048 cells, and past them nothing is on. -/
def Framebuffer.cell (fb : Framebuffer) (idx : Nat) : Bool :=
  (fb[idx / Config.fbWidth]?.getD 0).getLsbD (idx % Config.fbWidth)

/-- FB[idx] <- FB[idx] XOR 1. -/
def Framebuffer.toggle (fb : Framebuffer) (idx : Nat) : Framebuffer :=
  fb.setIfInBounds (idx / Config.fbWidth)
    (fb[idx / Config.fbWidth]?.getD 0 ^^^ BitVec.twoPow Config.fbWidth (idx % Config.fbWidth))

/-- All 2048 cells 0. -/
def Framebuffer.clear : Framebuffer := Vector.replicate Config.fbHeight 0

/-- A mutation of the framebuffer by CLS or DRW: the new cells, and CHANGED <- 1 (10_state.md R24). -/
def State.paint (fb : Framebuffer) (s : State) : State := { s with fb := fb, changed := true }

/-! ### The keypad (10_state.md R25, R26) -/

/-- KEY[k]. -/
def State.getKey (s : State) (k : Nibble) : Bool := s.key[k.toNat]'k.isLt

/-- AWAIT <- 1, AWAIT_REG <- x (44_timers_keys.md R95). -/
def State.beginWait (x : Nibble) (s : State) : State := { s with await := true, awaitReg := x }

/-- AWAIT <- 0; AWAIT_REG keeps its stale value (10_state.md R26). -/
def State.endWait (s : State) : State := { s with await := false }

/-! ### Errors (60_exceptions.md) -/

/-- TAKING A FATAL ERROR, the one operation of 60_exceptions.md R100: RUN <- HALTED, ERR <- (kind, addr), and
nothing else; PC stays at the faulting instruction. There is no handler and no return from it: only Reset leaves
HALTED (R104, R105). -/
def State.raiseFatal (e : FatalError) (s : State) : State := { s with run := .halted, err := some e }

/-- What a decode error does to the state (60_exceptions.md R99): PC <- PC + 2 and nothing else. The diagnostic
itself is the Step's result (`stepResult`). -/
def State.decodeError (s : State) : State := s.advance

/-- An instruction that accesses `n` bytes from `a`: it raises the error of `CheckRange(a, n)`, or else it
completes with `done`; the check comes before every write (20_memory.md R37). -/
def accessing (a n : Nat) (s done : State) : Result :=
  match checkRange a n with
  | some e => .next (s.raiseFatal e)
  | none => .next done

/-! ### The random byte (00_scope.md R9) -/

/-- `draw RNG`: the byte this CXNN draws. A free value. -/
def State.rngByte (s : State) : Byte := Config.rng s.draws

/-- The draw is used up, so that the next one is another value (41_alu.md R80: "Each CXNN takes a fresh draw"). -/
def State.countDraw (s : State) : State := { s with draws := s.draws + 1 }

end Sys2Proof.Machine
end

