-- ==== Sys2Proof/Machine/Cycle.lean ====
section
/-! DEFINITION. The parts of the Step transaction outside `Execute` (30_encoding.md R57, R58): the fetch, the
resolution of a pending key wait, the order in which a Step's conditions are tested (60_exceptions.md R103), and
the placing of one instruction where the next Step fetches. -/

namespace Sys2Proof.Machine

/-- `Fetch()` (R57): the big-endian word at PC and PC+1, or the fatal error of the range check. PC is unchanged. -/
def State.fetch (s : State) : Except FatalError Word :=
  match checkRange s.pc.toNat 2 with
  | some e => .error e
  | none => .ok (wordOfBytes (s.memRead s.pc.toNat) (s.memRead (s.pc.toNat + 1)))

/-- The least k with KEY[k] = 1, if a key is held (R58; decision D21: the lowest held index wins). -/
def State.leastKey (s : State) : Option Nibble :=
  ((List.range 16).map (BitVec.ofNat 4)).find? s.getKey

/-- The resolution of FX0A by key `k` (R58; 44_timers_keys.md R95): V[AWAIT_REG] <- k, AWAIT <- 0, PC <- PC + 2. -/
def State.resolveWait (k : Nibble) (s : State) : State := ((s.setV s.awaitReg (k.setWidth 8)).endWait).advance

/-- What the next Step does. -/
inductive Action where
  /-- RUN = HALTED: nothing changes (60_exceptions.md R101). -/
  | halted
  /-- AWAIT = 1 and no key held: nothing changes, nothing is fetched (R58). -/
  | waiting
  /-- AWAIT = 1 and `k` is the least held key: the wait resolves (R58). -/
  | resolve (k : Nibble)
  /-- The fetch is out of range (R57). -/
  | fetchFault (e : FatalError)
  /-- The fetched word is `Unknown` (R53). -/
  | unknown (w : Word)
  /-- The fetched word `w` decodes to `i`, which executes. -/
  | execute (i : Instr) (w : Word)
deriving DecidableEq, Repr

/-- The order of 60_exceptions.md R103: HALTED, AWAIT, the fetch's fault, decode, execute. -/
def State.nextAction (s : State) : Action :=
  match s.run with
  | .halted => .halted
  | .running =>
    if s.await then
      match s.leastKey with
      | some k => .resolve k
      | none => .waiting
    else
      match s.fetch with
      | .error e => .fetchFault e
      | .ok w =>
        match decodeWord w with
        | .ok i => .execute i w
        | .error _ => .unknown w

/-- The state with the word `w` where the next Step fetches, and ready to fetch it: HALTED and AWAIT are left and
a PC past the last word is brought back to `PROG_BASE`; where none of these holds, only the two bytes at PC
change. It stands for the host's loading of a program (70_reset_and_hazards.md R120, R122). Log entry 12. -/
def State.placeWord (w : Word) (s : State) : State :=
  let t : State := match s.run with
    | .running => s
    | .halted => { s with run := .running, err := none }
  let t : State := if t.await then t.endWait else t
  let t : State := match checkRange t.pc.toNat 2 with
    | none => t
    | some _ => t.setPc (BitVec.ofNat 16 Config.progBase)
  t.storeBytes [highByte w, lowByte w] t.pc.toNat

end Sys2Proof.Machine
end

