-- ==== Sys2Proof/Machine/Flags.lean ====
section
/-! DEFINITION. Every computation of the flag VF (10_state.md R14), each a byte 0x00 or 0x01. The borrow flags
compare the operands before the subtraction, "never by bit manipulation" (41_alu.md R81). -/

namespace Sys2Proof.Machine

/-- The flag byte of a condition. -/
def flagOf (c : Bool) : Byte := if c then 1 else 0

/-- 8XY4: 1 iff the 9-bit sum exceeds 255 (41_alu.md R75). -/
def carryFlag (a b : Byte) : Byte := flagOf (decide (a.toNat + b.toNat > 255))

/-- 8XY5 and 8XY7: 0 iff the minuend is below the subtrahend, 1 meaning no borrow (41_alu.md R76, R78). -/
def notBorrowFlag (minuend subtrahend : Byte) : Byte := flagOf (!decide (minuend.toNat < subtrahend.toNat))

/-- 8XY6: bit 0 of the source, `s AND 0x01` (41_alu.md R77). -/
def shiftedOutLow (src : Byte) : Byte := src &&& 0x01

/-- 8XYE: bit 7 of the source, `(s >> 7) AND 0x01` (41_alu.md R79). -/
def shiftedOutHigh (src : Byte) : Byte := (src >>> 7) &&& 0x01

end Sys2Proof.Machine
end

