-- ==== Sys2Proof/Machine/Operands.lean ====
section
/-! DEFINITION. The operand forms of 30_encoding.md R50 that are more than a field or a register read: addresses
widened to 16 bits, the shift's source register, the font address of a digit, the key a register names, the BCD
digits, the registers a dump stores, and a sprite pixel's cell. -/

namespace Sys2Proof.Machine

/-- `zext_16(NNN)`: an address operand at the width of PC and I (R50). -/
def addrWord (nnn : Addr) : Word := nnn.setWidth 16

/-- A byte operand added to an address: `zext_16` of a register value. -/
def byteWord (b : Byte) : Word := b.setWidth 16

/-- The source operand of 8XY6 and 8XYE under a setting of SHIFT_SRC (00_scope.md R8; 41_alu.md R77, R79). -/
def shiftSource (src : ShiftSrc) (x y : Nibble) (s : State) : Byte :=
  match src with
  | .vy => s.getV y
  | .vx => s.getV x

/-- `FONT_BASE + 5 * V[x]` with no mask on the digit (42_index_memory.md R84). -/
def fontAddr (digit : Byte) : Word := BitVec.ofNat 16 (Config.fontBase + 5 * digit.toNat)

/-- `KeyAt(v)` (44_timers_keys.md R91): a value past 0x0F names no key and is fatal. -/
def keyAt (v : Byte) (s : State) : Except FatalError Bool :=
  if v.toNat > 0x0F then .error (.keyIndexOutOfRange v) else .ok (s.getKey (v.setWidth 4))

/-- The hundreds, tens and ones digits of a byte, in store order (42_index_memory.md R85). -/
def bcdDigits (v : Byte) : List Byte :=
  [BitVec.ofNat 8 (v.toNat / 100), BitVec.ofNat 8 (v.toNat / 10 % 10), BitVec.ofNat 8 (v.toNat % 10)]

/-- V0..Vx inclusive, ascending: what FX55 stores (42_index_memory.md R86). -/
def dumpBytes (x : Nibble) (s : State) : List Byte :=
  (List.range (x.toNat + 1)).map fun k => s.getV (BitVec.ofNat 4 k)

/-- The framebuffer cell of a sprite's pixel: each coordinate wraps on its own (43_display.md R89). -/
def pixelIndex (x0 y0 : Byte) (col row : Nat) : Nat :=
  (x0.toNat + col) % Config.fbWidth + Config.fbWidth * ((y0.toNat + row) % Config.fbHeight)

end Sys2Proof.Machine
end

