-- ==== Sys2Proof/Machine/Alu.lean ====
section
/-! DEFINITION. The meanings of 41_alu.md: loads, arithmetic, logic, shifts, random. Operands are read before any
write, and a flag write to VF comes after the result write, so that VF ends as the flag when x = F (decision D15). -/

namespace Sys2Proof.Machine

/-- V[x] <- r, PC <- PC + 2: an ALU instruction that writes no flag. -/
def finish (x : Nibble) (r : Byte) (s : State) : Result := .next (s.setV x r).advance

/-- V[x] <- r, then VF <- f, PC <- PC + 2: an ALU instruction with a flag, whose write is last (10_state.md R14). -/
def finishFlag (x : Nibble) (r f : Byte) (s : State) : Result := .next ((s.setV x r).setFlag f).advance

/-- SHR under a given setting of SHIFT_SRC (R77). -/
def shiftRight (src : ShiftSrc) (x y : Nibble) (s : State) : Result :=
  let b := shiftSource src x y s
  finishFlag x (b >>> 1) (shiftedOutLow b) s

/-- SHL under a given setting of SHIFT_SRC (R79). -/
def shiftLeft (src : ShiftSrc) (x y : Nibble) (s : State) : Result :=
  let b := shiftSource src x y s
  finishFlag x (b <<< 1) (shiftedOutHigh b) s

/-- LD Vx, NN (R69). -/
def execLdImm (x : Nibble) (nn : Byte) (s : State) : Result := finish x nn s

/-- ADD Vx, NN (R70): wraps, and no flag changes. -/
def execAddImm (x : Nibble) (nn : Byte) (s : State) : Result := finish x (s.getV x + nn) s

/-- LD Vx, Vy (R71). -/
def execLdReg (x y : Nibble) (s : State) : Result := finish x (s.getV y) s

/-- OR Vx, Vy (R72): VF is not written unless x = F (decision D16). -/
def execOrReg (x y : Nibble) (s : State) : Result := finish x (s.getV x ||| s.getV y) s

/-- AND Vx, Vy (R73): VF is not written unless x = F (decision D16). -/
def execAndReg (x y : Nibble) (s : State) : Result := finish x (s.getV x &&& s.getV y) s

/-- XOR Vx, Vy (R74): VF is not written unless x = F (decision D16). -/
def execXorReg (x y : Nibble) (s : State) : Result := finish x (s.getV x ^^^ s.getV y) s

/-- ADD Vx, Vy (R75): VF is the carry out of bit 7. -/
def execAddReg (x y : Nibble) (s : State) : Result :=
  finishFlag x (s.getV x + s.getV y) (carryFlag (s.getV x) (s.getV y)) s

/-- SUB Vx, Vy (R76): VF is NOT borrow of V[x] - V[y]. -/
def execSubReg (x y : Nibble) (s : State) : Result :=
  finishFlag x (s.getV x - s.getV y) (notBorrowFlag (s.getV x) (s.getV y)) s

/-- SHR Vx, Vy (R77), the source chosen by SHIFT_SRC. -/
def execShr (x y : Nibble) (s : State) : Result := shiftRight Config.shiftSrc x y s

/-- SUBN Vx, Vy (R78): VF is NOT borrow of V[y] - V[x]. -/
def execSubn (x y : Nibble) (s : State) : Result :=
  finishFlag x (s.getV y - s.getV x) (notBorrowFlag (s.getV y) (s.getV x)) s

/-- SHL Vx, Vy (R79), the source chosen by SHIFT_SRC. -/
def execShl (x y : Nibble) (s : State) : Result := shiftLeft Config.shiftSrc x y s

/-- RND Vx, NN (R80): the draw is a free value, and a fresh one at each execution. -/
def execRnd (x : Nibble) (nn : Byte) (s : State) : Result := finish x (s.rngByte &&& nn) s.countDraw

end Sys2Proof.Machine
end

