-- ==== Sys2Proof/Machine/Display.lean ====
section
/-! DEFINITION. The meanings of 43_display.md: CLS and DRW, the only writers of FB and the only setters of CHANGED
(10_state.md R23, R24), with the sprite blitter's loops and its collision detector. -/

namespace Sys2Proof.Machine

/-- What the loops of R90 carry: the cells, and whether a pixel has gone from on to off. -/
structure Canvas where
  fb : Framebuffer
  collision : Bool
deriving DecidableEq, Repr

/-- One set sprite bit on cell `idx` (R90): a cell that is on collides, and the cell is XORed with 1. -/
def Canvas.plot (idx : Nat) (c : Canvas) : Canvas :=
  { fb := c.fb.toggle idx, collision := c.collision || c.fb.cell idx }

/-- Columns 0 .. n-1 of one sprite row, the byte's most significant bit first (R90, inner loop). -/
def Canvas.drawRow (b x0 y0 : Byte) (row : Nat) (n : Nat) (c : Canvas) : Canvas :=
  match n with
  | 0 => c
  | col + 1 =>
    let left := Canvas.drawRow b x0 y0 row col c
    if b.getLsbD (7 - col) then left.plot (pixelIndex x0 y0 col row) else left

/-- Rows 0 .. n-1 of the sprite at I, drawn over the state's framebuffer (R90, outer loop). -/
def State.drawRows (x0 y0 : Byte) (n : Nat) (s : State) : Canvas :=
  match n with
  | 0 => { fb := s.fb, collision := false }
  | row + 1 => (State.drawRows x0 y0 row s).drawRow (s.memRead (s.i.toNat + row)) x0 y0 row 8

/-- DRW's completion: the new cells, CHANGED <- 1, VF <- collision, PC <- PC + 2; I is not modified. -/
def State.drawSprite (x y n : Nibble) (s : State) : State :=
  let c := s.drawRows (s.getV x) (s.getV y) n.toNat
  ((s.paint c.fb).setFlag (flagOf c.collision)).advance

/-- CLS (R88): CHANGED is set even if the framebuffer was already clear. -/
def execCls (s : State) : Result := .next (s.paint Framebuffer.clear).advance

/-- DRW Vx, Vy, N (R90): with N = 0 no memory is read and nothing can fault (decision D18). -/
def execDrw (x y n : Nibble) (s : State) : Result :=
  if n = 0 then .next (s.drawSprite x y n)
  else accessing s.i.toNat n.toNat s (s.drawSprite x y n)

end Sys2Proof.Machine
end

