-- ==== Sys2Proof/Machine/Flow.lean ====
section
/-! DEFINITION. The meanings of 40_flow.md: SYS, RET, JP, CALL, the four skips on register values, JP V0. Each runs
after the fetch, with PC at the instruction's own address. -/

namespace Sys2Proof.Machine

/-- SYS NNN (R59): a decode error; NNN is ignored. -/
def execSys (_nnn : Addr) (s : State) : Result := .next s.decodeError

/-- RET (R60): StackUnderflow at SP = 0, else PC is the popped value with no +2. -/
def execRet (s : State) : Result :=
  match s.pop with
  | .error e => .next (s.raiseFatal e)
  | .ok (target, t) => .next (t.setPc target)

/-- JP NNN (R61). -/
def execJp (nnn : Addr) (s : State) : Result := .next (s.setPc (addrWord nnn))

/-- CALL NNN (R62): StackOverflow at SP = 16, else the saved value is PC + 2. -/
def execCall (nnn : Addr) (s : State) : Result :=
  match s.push (s.pc + 2) with
  | .error e => .next (s.raiseFatal e)
  | .ok t => .next (t.setPc (addrWord nnn))

/-- SE Vx, NN (R63). -/
def execSeImm (x : Nibble) (nn : Byte) (s : State) : Result := .next (s.skipIf (s.getV x == nn))

/-- SNE Vx, NN (R64). -/
def execSneImm (x : Nibble) (nn : Byte) (s : State) : Result := .next (s.skipIf (s.getV x != nn))

/-- SE Vx, Vy (R65). -/
def execSeReg (x y : Nibble) (s : State) : Result := .next (s.skipIf (s.getV x == s.getV y))

/-- SNE Vx, Vy (R66). -/
def execSneReg (x y : Nibble) (s : State) : Result := .next (s.skipIf (s.getV x != s.getV y))

/-- JP V0, NNN (R67): the offset is always V0, and the target is not wrapped to 12 bits. -/
def execJpV0 (nnn : Addr) (s : State) : Result := .next (s.setPc (addrWord nnn + byteWord (s.getV 0)))

end Sys2Proof.Machine
end

