-- ==== Sys2Proof/Machine/IndexMemory.lean ====
section
/-! DEFINITION. The meanings of 42_index_memory.md: ANNN, FX1E, FX29, FX33, FX55, FX65. Their addresses are I plus a
constant, I itself is never modified by an access, and the range is checked before the first write. -/

namespace Sys2Proof.Machine

/-- LD I, NNN (R82). -/
def execLdI (nnn : Addr) (s : State) : Result := .next (s.setI (addrWord nnn)).advance

/-- ADD I, Vx (R83): modulo 2^16, not truncated to 12 bits, and VF is never written. -/
def execAddI (x : Nibble) (s : State) : Result := .next (s.setI (s.i + byteWord (s.getV x))).advance

/-- LD F, Vx (R84): the digit is not masked (decision D19). -/
def execLdF (x : Nibble) (s : State) : Result := .next (s.setI (fontAddr (s.getV x))).advance

/-- LD B, Vx (R85): the BCD digits at I, I+1, I+2. -/
def execLdB (x : Nibble) (s : State) : Result :=
  accessing s.i.toNat 3 s (s.storeBytes (bcdDigits (s.getV x)) s.i.toNat).advance

/-- LD [I], Vx (R86): V0..Vx inclusive to MEM[I..I+x]; I unchanged. -/
def execLdMemVx (x : Nibble) (s : State) : Result :=
  accessing s.i.toNat (x.toNat + 1) s (s.storeBytes (dumpBytes x s) s.i.toNat).advance

/-- LD Vx, [I] (R87): MEM[I..I+x] inclusive to V0..Vx; I unchanged. -/
def execLdVxMem (x : Nibble) (s : State) : Result :=
  accessing s.i.toNat (x.toNat + 1) s (s.loadRegs s.i.toNat (x.toNat + 1)).advance

end Sys2Proof.Machine
end

