-- ==== Sys2Proof/Machine/TimersKeys.lean ====
section
/-! DEFINITION. The meanings of 44_timers_keys.md: SKP, SKNP, the delay and sound timer moves, and the executing half
of the key wait FX0A; its resolution by a later Step is `State.resolveWait` in Machine/Cycle.lean. -/

namespace Sys2Proof.Machine

/-- A skip on the key that V[x] names (R91): the fatal error of `KeyAt`, or a skip where the key's level is
`level`. -/
def skipOnKey (level : Bool) (x : Nibble) (s : State) : Result :=
  match keyAt (s.getV x) s with
  | .error e => .next (s.raiseFatal e)
  | .ok k => .next (s.skipIf (k == level))

/-- SKP Vx (R92). -/
def execSkp (x : Nibble) (s : State) : Result := skipOnKey true x s

/-- SKNP Vx (R93). -/
def execSknp (x : Nibble) (s : State) : Result := skipOnKey false x s

/-- LD Vx, DT (R94). -/
def execLdVxDt (x : Nibble) (s : State) : Result := .next (s.setV x s.dt).advance

/-- LD Vx, K (R95), the executing Step: the keypad is not sampled and PC is not advanced. -/
def execLdVxK (x : Nibble) (s : State) : Result := .next (s.beginWait x)

/-- LD DT, Vx (R96). -/
def execLdDtVx (x : Nibble) (s : State) : Result := .next (s.setDt (s.getV x)).advance

/-- LD ST, Vx (R97). -/
def execLdStVx (x : Nibble) (s : State) : Result := .next (s.setSt (s.getV x)).advance

end Sys2Proof.Machine
end

