-- ==== Sys2Proof/Machine/Step.lean ====
section
/-! DEFINITION. The Step transaction (30_encoding.md R58) as one function of the state. The random byte R58 hands it is
the free value that RND draws (log entry 2); its result value is `stepResult` in Machine/Transactions.lean. -/

namespace Sys2Proof.Machine

/-- One Step (R58): what `State.nextAction` says, done. -/
def step (s : State) : Host.Outcome State Fault Refusal :=
  match s.nextAction with
  | .halted => .next s
  | .waiting => .next s
  | .resolve k => .next (s.resolveWait k)
  | .fetchFault e => .next (s.raiseFatal e)
  | .unknown _ => .next s.decodeError
  | .execute i _ => exec i s

/-- `s` with the instruction whose bits are `w` (numbered as spec/opcode_table.json numbers them) stored where the
next step fetches. -/
def State.withFetchWord (s : State) (nbits w : Nat) : State := s.placeWord (tableWord nbits w)

end Sys2Proof.Machine
end

