-- ==== Sys2Proof/Machine/Transactions.lean ====
section
/-! DEFINITION. The host interface of 60_exceptions.md R114: every transaction, what it does to the state and what the
host gets back. Step is `step`; the others are here. The host issues them in any order (R114, R115), so a run is a
list of transactions (log entry 10). -/

namespace Sys2Proof.Machine

/-- The kinds of 60_exceptions.md R98, `none` among them. -/
inductive ErrorKind where
  | none
  | stackOverflow
  | stackUnderflow
  | memOutOfRange
  | keyIndexOutOfRange
  | decodeError
  | romLoadError
deriving DecidableEq, Repr

/-- The numeric codes of R98 (decision D38). -/
def ErrorKind.code : ErrorKind → Nat
  | .none => 0
  | .stackOverflow => 1
  | .stackUnderflow => 2
  | .memOutOfRange => 3
  | .keyIndexOutOfRange => 4
  | .decodeError => 5
  | .romLoadError => 6

/-- The kind half of ERR (10_state.md R27). -/
def FatalError.kind : FatalError → ErrorKind
  | .stackOverflow => .stackOverflow
  | .stackUnderflow => .stackUnderflow
  | .memOutOfRange _ => .memOutOfRange
  | .keyIndexOutOfRange _ => .keyIndexOutOfRange

/-- The addr half of ERR: the offending address or value, or none (10_state.md R27; R98). -/
def FatalError.addr : FatalError → Option Nat
  | .stackOverflow => Option.none
  | .stackUnderflow => Option.none
  | .memOutOfRange a => some a
  | .keyIndexOutOfRange v => some v.toNat

/-- The result of a Step (30_encoding.md R58). -/
inductive StepResult where
  /-- An instruction executed, or a key wait began or resolved. -/
  | ok
  /-- A key wait goes on. -/
  | waiting
  /-- The non-fatal diagnostic of R99: the instruction's address and its word. -/
  | decodeError (pc w : Word)
  /-- The core is halted. -/
  | halted
  /-- A fatal error, just recorded in ERR. -/
  | fatal (e : FatalError)
deriving DecidableEq, Repr

/-- Whether an instruction is SYS, which a Step treats as `Unknown` (40_flow.md R59). -/
def isSys : Instr → Bool
  | .sys _ => true
  | .cls | .ret | .jp _ | .call _ | .seImm _ _ | .sneImm _ _ | .seReg _ _ | .ldImm _ _ | .addImm _ _ | .ldReg _ _
  | .orReg _ _ | .andReg _ _ | .xorReg _ _ | .addReg _ _ | .subReg _ _ | .shr _ _ | .subn _ _ | .shl _ _
  | .sneReg _ _ | .ldI _ | .jpV0 _ | .rnd _ _ | .drw _ _ _ | .skp _ | .sknp _ | .ldVxDt _ | .ldVxK _ | .ldDtVx _
  | .ldStVx _ | .addI _ | .ldF _ | .ldB _ | .ldMemVx _ | .ldVxMem _ => false

/-- The result of an executed instruction that was not SYS: `Fatal` exactly when the core is halted after it, since
a Step executes only in RUNNING. -/
def execResult (t : State) : StepResult :=
  match t.run, t.err with
  | .halted, some e => .fatal e
  | .halted, Option.none => .halted
  | .running, _ => .ok

/-- The state after a Step. A step always answers a next state, so the other two cases never arise. -/
def stepState (s : State) : State :=
  match step s with
  | .next t => t
  | .fault _ => s
  | .refused _ => s

/-- What a Step from `s` returns to the host (R58; the core keeps no record of it, R29 and R99). Log entry 14. -/
def stepResult (s : State) : StepResult :=
  match s.nextAction with
  | .halted => .halted
  | .waiting => .waiting
  | .resolve _ => .ok
  | .fetchFault e => .fatal e
  | .unknown w => .decodeError s.pc w
  | .execute i w => if isSys i then .decodeError s.pc w else execResult (stepState s)

/-- A timer after one tick: decremented if nonzero (R107). -/
def decay (b : Byte) : Byte := if b = 0 then 0 else b - 1

/-- `Tick()`'s effect (R107): DT and ST, in every RUN and AWAIT state. -/
def State.tick (s : State) : State := (s.setDt (decay s.dt)).setSt (decay s.st)

/-- `Tick()`'s tone bit (R108): ST is 1 before the decrement. -/
def State.tone (s : State) : Bool := s.st == 1

/-- `KeyEvent(k, level)` (R110): KEY[k] <- level. The key's type leaves no index outside 0..15 (decision D33). -/
def State.keyEvent (k : Nibble) (level : Bool) (s : State) : State := { s with key := s.key.set k.toNat level k.isLt }

/-- `ClearChanged()` (R112). -/
def State.clearChanged (s : State) : State := { s with changed := false }

/-- `Reset()` (70_reset_and_hazards.md R118): every element of R12 at its reset value. The model's own counter of
draws goes on, so that the draws after a Reset are not assumed to repeat those before it (log entry 13). -/
def State.resetCore (s : State) : State := { State.reset with draws := s.draws }

/-- `LoadRom(bytes)`'s effect (70_reset_and_hazards.md R120, R121): rejected whole past 3584 bytes, else a copy to
0x200 upwards; nothing else changes. -/
def State.loadRom (bytes : List Byte) (s : State) : State :=
  if bytes.length > Config.maxRom then s else s.storeBytes bytes Config.progBase

/-- The host's transactions (R114). -/
inductive Transaction where
  | reset
  | loadRom (bytes : List Byte)
  | step
  | tick
  | keyEvent (k : Nibble) (level : Bool)
  | readFramebuffer
  | clearChanged
  | readStatus
deriving DecidableEq, Repr

/-- What the host gets back (R114, last column). -/
inductive Response where
  /-- Nothing: Reset, KeyEvent, ClearChanged. -/
  | nothing
  /-- LoadRom accepted the image. -/
  | romLoaded
  /-- LoadRom rejected an image of `len` bytes (70_reset_and_hazards.md R121). -/
  | romLoadError (len : Nat)
  /-- The result of a Step. -/
  | stepped (r : StepResult)
  /-- The tone bit of a Tick. -/
  | tone (on : Bool)
  /-- The cells of FB and CHANGED (R111). -/
  | framebuffer (fb : Framebuffer) (changed : Bool)
  /-- RUN, ERR, AWAIT, DT and ST (R101, R114). -/
  | status (run : RunState) (err : Option FatalError) (await : Bool) (dt st : Byte)
deriving DecidableEq, Repr

/-- One transaction: the state after it. -/
def transact (τ : Transaction) (s : State) : State :=
  match τ with
  | .reset => s.resetCore
  | .loadRom bytes => s.loadRom bytes
  | .step => stepState s
  | .tick => s.tick
  | .keyEvent k level => s.keyEvent k level
  | .readFramebuffer => s
  | .clearChanged => s.clearChanged
  | .readStatus => s

/-- One transaction: what the host gets back from the state before it. -/
def respond (τ : Transaction) (s : State) : Response :=
  match τ with
  | .reset => .nothing
  | .loadRom bytes => if bytes.length > Config.maxRom then .romLoadError bytes.length else .romLoaded
  | .step => .stepped (stepResult s)
  | .tick => .tone s.tone
  | .keyEvent _ _ => .nothing
  | .readFramebuffer => .framebuffer s.fb s.changed
  | .clearChanged => .nothing
  | .readStatus => .status s.run s.err s.await s.dt s.st

/-- The host's sequence of transactions, in order (R115). -/
def runTransactions (τs : List Transaction) (s : State) : State :=
  match τs with
  | [] => s
  | τ :: rest => runTransactions rest (transact τ s)

end Sys2Proof.Machine
end

