-- ==== Sys2Proof/Safety.lean ====
section
/-! DEFINITION. The terms claims are stated in: what a transition may touch (frames), the invariants of the machine, the
states that runs reach, and the flat framebuffer geometry of a sprite. -/

namespace Sys2Proof.Machine

/-- The elements of `State`, by name: the tuple of 10_state.md R12 and the model's counter of draws. -/
inductive Part where
  | v | i | pc | sp | stack | dt | st | mem | fb | changed | key | await | awaitReg | run | err | draws
deriving DecidableEq, Repr

/-- Two states agree on one element. Registers, memory, framebuffer and keys are compared through the model's read
of one of them at every index. -/
def Part.Same : Part → State → State → Prop
  | .v, s, t => ∀ r : Nibble, t.getV r = s.getV r
  | .i, s, t => t.i = s.i
  | .pc, s, t => t.pc = s.pc
  | .sp, s, t => t.sp = s.sp
  | .stack, s, t => t.stack = s.stack
  | .dt, s, t => t.dt = s.dt
  | .st, s, t => t.st = s.st
  | .mem, s, t => ∀ a : Nat, t.memRead a = s.memRead a
  | .fb, s, t => ∀ idx : Nat, t.fb.cell idx = s.fb.cell idx
  | .changed, s, t => t.changed = s.changed
  | .key, s, t => ∀ k : Nibble, t.getKey k = s.getKey k
  | .await, s, t => t.await = s.await
  | .awaitReg, s, t => t.awaitReg = s.awaitReg
  | .run, s, t => t.run = s.run
  | .err, s, t => t.err = s.err
  | .draws, s, t => t.draws = s.draws

/-- The frame of a transition: every element outside `touched` is as before. -/
def Frame (touched : List Part) (s t : State) : Prop := ∀ p : Part, p ∉ touched → p.Same s t

/-- Every general register outside `written` is as before. -/
def RegsExcept (written : List Nibble) (s t : State) : Prop := ∀ r : Nibble, r ∉ written → t.getV r = s.getV r

/-- Every byte of memory outside the `n` bytes from `a` reads as before. -/
def MemExcept (a n : Nat) (s t : State) : Prop := ∀ k : Nat, ¬(a ≤ k ∧ k < a + n) → t.memRead k = s.memRead k

/-- `t` is `s` with a fatal error taken, precisely (60_exceptions.md R100): RUN and ERR, and nothing else. -/
def Halts (e : FatalError) (s t : State) : Prop := t.run = .halted ∧ t.err = some e ∧ Frame [.run, .err] s t

/-- The state can execute an instruction: RUNNING, and no key wait pending (30_encoding.md R58). -/
abbrev State.Ready (s : State) : Prop := s.run = .running ∧ s.await = false

/-- The memory keeps its canonical form, so that equal memories are equal data. -/
abbrev State.MemCanonical (s : State) : Prop := s.mem.wf

/-- RUN and ERR agree, and a recorded value is one that 60_exceptions.md R98 lists: an address past 0xFFF, or a
register value in 0x10-0xFF. -/
abbrev State.ErrRecorded (s : State) : Prop :=
  (s.run = .halted ↔ s.err.isSome) ∧
    match s.err with
    | some (.memOutOfRange a) => 0x1000 ≤ a ∧ a ≤ 0xFFFF
    | some (.keyIndexOutOfRange v) => 0x10 ≤ v.toNat
    | some .stackOverflow => s.sp.val = Config.stackDepth
    | some .stackUnderflow => s.sp.val = 0
    | none => True

/-- The bound of 10_state.md R17, "the largest value any rule can produce is 0xFFF + 0xFF = 0x10FE", with what
carries it from step to step: live stack slots hold at most 0x1000 (40_flow.md R62), and a PC at which a key wait is
pending was fetched from. -/
abbrev State.PcBounded (s : State) : Prop :=
  s.pc.toNat ≤ 0x10FE ∧ (∀ k : Fin Config.stackDepth, k.val < s.sp.val → s.stack[k.val].toNat ≤ 0x1000) ∧
    (s.await = true → s.pc.toNat ≤ 0xFFE)

/-- The states of the runs: Reset's state, and what any transaction of the host leads to (60_exceptions.md R114). -/
inductive Reachable : State → Prop where
  | reset : Reachable State.reset
  | transact (τ : Transaction) (s : State) : Reachable s → Reachable (transact τ s)

/-- What MEM[a] holds after a dump of V0..Vx at I: the register stored there, or the byte it held. -/
def State.dumpedByte (s : State) (x : Nibble) (a : Nat) : Byte :=
  if s.i.toNat ≤ a ∧ a ≤ s.i.toNat + x.toNat then s.getV (BitVec.ofNat 4 (a - s.i.toNat)) else s.memRead a

/-- What MEM[a] holds after the digits of `v` are stored at I: the digit stored there, or the byte it held. -/
def State.bcdByte (s : State) (v : Byte) (a : Nat) : Byte :=
  if a = s.i.toNat then BitVec.ofNat 8 (v.toNat / 100)
  else if a = s.i.toNat + 1 then BitVec.ofNat 8 (v.toNat / 10 % 10)
  else if a = s.i.toNat + 2 then BitVec.ofNat 8 (v.toNat % 10)
  else s.memRead a

/-- Cell `idx` lies under a set bit of the `n`-row sprite at I drawn from origin (x0, y0): bit `7 - col` of row
`row`'s byte, at the place 43_display.md R89 gives it. -/
def Covered (s : State) (x0 y0 : Byte) (n idx : Nat) : Prop :=
  ∃ row < n, ∃ col < 8, (s.memRead (s.i.toNat + row)).getLsbD (7 - col) = true ∧ idx = pixelIndex x0 y0 col row

end Sys2Proof.Machine
end

