-- ==== Sys2Proof/Certificates/Slice0/Obligations.lean ====
section
/-! DEFINITION. The statements for the provers, family by family. Every `exec` statement concludes that the
instruction answers a next state and says what that state holds; `Frame` lists all it may touch, and every other
element of the state, every byte of memory included, is as before. "Dn" is a row of 92_eei_decisions.md. -/

open Sys2Proof Sys2Proof.Machine

/-! ## Control transfer and skips (40_flow.md) -/

/-- 40_flow.md R59 with decision D6 (SYS executes as a decode error): PC + 2 and nothing else. -/
def Obligations.SysOnlyAdvances : Prop :=
  ∀ (nnn : Addr) (s : State), ∃ t, exec (.sys nnn) s = .next t ∧ t.pc = s.pc + 2 ∧ Frame [.pc] s t

/-- 40_flow.md R60; that underflow is fatal is decision D14. -/
def Obligations.RetPopsOrUnderflows : Prop :=
  (∀ s : State, s.sp.val = 0 → ∃ t, exec .ret s = .next t ∧ Halts .stackUnderflow s t) ∧
    ∀ (s : State) (k : Fin Config.stackDepth), s.sp.val = k.val + 1 →
      ∃ t, exec .ret s = .next t ∧ t.sp.val = k.val ∧ t.pc = s.stack[k] ∧ Frame [.sp, .pc] s t

/-- 40_flow.md R61. -/
def Obligations.JpSetsPc : Prop :=
  ∀ (nnn : Addr) (s : State), ∃ t, exec (.jp nnn) s = .next t ∧ t.pc.toNat = nnn.toNat ∧ Frame [.pc] s t

/-- 40_flow.md R62; that PC + 2 is the saved value is decision D13, that overflow is fatal is decision D14. -/
def Obligations.CallPushesOrOverflows : Prop :=
  ∀ nnn : Addr, (∀ s : State, s.sp.val = Config.stackDepth →
      ∃ t, exec (.call nnn) s = .next t ∧ Halts .stackOverflow s t) ∧
    ∀ (s : State) (k : Fin Config.stackDepth), s.sp.val = k.val →
      ∃ t, exec (.call nnn) s = .next t ∧ t.sp.val = k.val + 1 ∧ t.stack[k] = s.pc + 2 ∧
        (∀ j : Fin Config.stackDepth, j ≠ k → t.stack[j] = s.stack[j]) ∧
        t.pc.toNat = nnn.toNat ∧ Frame [.sp, .stack, .pc] s t

/-- 40_flow.md R63 and R64. -/
def Obligations.ImmediateSkips : Prop :=
  ∀ (x : Nibble) (nn : Byte) (s : State),
    (∃ t, exec (.seImm x nn) s = .next t ∧ t.pc = s.pc + (if s.getV x = nn then 4 else 2) ∧ Frame [.pc] s t) ∧
    (∃ t, exec (.sneImm x nn) s = .next t ∧ t.pc = s.pc + (if s.getV x ≠ nn then 4 else 2) ∧ Frame [.pc] s t)

/-- 40_flow.md R65 and R66. -/
def Obligations.RegisterSkips : Prop :=
  ∀ (x y : Nibble) (s : State),
    (∃ t, exec (.seReg x y) s = .next t ∧
      t.pc = s.pc + (if s.getV x = s.getV y then 4 else 2) ∧ Frame [.pc] s t) ∧
    (∃ t, exec (.sneReg x y) s = .next t ∧
      t.pc = s.pc + (if s.getV x ≠ s.getV y then 4 else 2) ∧ Frame [.pc] s t)

/-- 40_flow.md R67; that the target is kept past 0xFFF, not wrapped, is decision D8. -/
def Obligations.JpV0AddsWithoutWrapping : Prop :=
  ∀ (nnn : Addr) (s : State), ∃ t, exec (.jpV0 nnn) s = .next t ∧
    t.pc.toNat = nnn.toNat + (s.getV 0).toNat ∧ Frame [.pc] s t

/-- The round trip of 95_test_vectors.md S8, "restores PC to its pre-call value + 2, and the stack pointer returns to
its pre-call depth" (conflict C7, decision D13), over any state the subroutine reaches with the stack as it was
left. -/
def Obligations.CallThenRetReturns : Prop :=
  ∀ (nnn : Addr) (s : State), s.sp.val < Config.stackDepth →
    ∃ t, exec (.call nnn) s = .next t ∧
      ∀ t' : State, t'.sp = t.sp → t'.stack = t.stack →
        ∃ u, exec .ret t' = .next u ∧ u.pc = s.pc + 2 ∧ u.sp = s.sp

/-- 70_reset_and_hazards.md R123: a jump to itself is a hang, "every Step returns `Ok` and leaves the state
unchanged" (that this is how a run ends or hangs is decision D39, the word of JP decision D5). -/
def Obligations.SelfJumpHangs : Prop :=
  ∀ (s : State) (nnn : Addr), s.Ready → s.fetch = .ok (0x1#4 ++ nnn) → s.pc.toNat = nnn.toNat →
    step s = .next s ∧ stepResult s = .ok

/-! ## ALU (41_alu.md) -/

/-- 41_alu.md R69 and R71. -/
def Obligations.LoadsCopyTheirOperand : Prop :=
  ∀ (x y : Nibble) (nn : Byte) (s : State),
    (∃ t, exec (.ldImm x nn) s = .next t ∧ t.getV x = nn ∧ RegsExcept [x] s t ∧ t.pc = s.pc + 2 ∧
      Frame [.v, .pc] s t) ∧
    (∃ t, exec (.ldReg x y) s = .next t ∧ t.getV x = s.getV y ∧ RegsExcept [x] s t ∧ t.pc = s.pc + 2 ∧
      Frame [.v, .pc] s t)

/-- 41_alu.md R70: wraps modulo 256, and VF does not change unless it is the destination. -/
def Obligations.AddImmediateWraps : Prop :=
  ∀ (x : Nibble) (nn : Byte) (s : State), ∃ t, exec (.addImm x nn) s = .next t ∧
    (t.getV x).toNat = ((s.getV x).toNat + nn.toNat) % 256 ∧ RegsExcept [x] s t ∧ t.pc = s.pc + 2 ∧
    Frame [.v, .pc] s t

/-- 41_alu.md R72, R73 and R74, bit by bit; that VF is not written unless it is the destination is decision D16. -/
def Obligations.LogicIsBitwise : Prop :=
  ∀ (x y : Nibble) (s : State),
    (∃ t, exec (.orReg x y) s = .next t ∧
      (∀ k : Nat, (t.getV x).getLsbD k = ((s.getV x).getLsbD k || (s.getV y).getLsbD k)) ∧
      RegsExcept [x] s t ∧ t.pc = s.pc + 2 ∧ Frame [.v, .pc] s t) ∧
    (∃ t, exec (.andReg x y) s = .next t ∧
      (∀ k : Nat, (t.getV x).getLsbD k = ((s.getV x).getLsbD k && (s.getV y).getLsbD k)) ∧
      RegsExcept [x] s t ∧ t.pc = s.pc + 2 ∧ Frame [.v, .pc] s t) ∧
    (∃ t, exec (.xorReg x y) s = .next t ∧
      (∀ k : Nat, (t.getV x).getLsbD k = xor ((s.getV x).getLsbD k) ((s.getV y).getLsbD k)) ∧
      RegsExcept [x] s t ∧ t.pc = s.pc + 2 ∧ Frame [.v, .pc] s t)

/-- 41_alu.md R75: the flag write is last (in decision D15's order), so VF is the carry even where x = F. -/
def Obligations.AddCarries : Prop :=
  ∀ (x y : Nibble) (s : State), ∃ t, exec (.addReg x y) s = .next t ∧
    (x ≠ 0xF#4 → (t.getV x).toNat = ((s.getV x).toNat + (s.getV y).toNat) % 256) ∧
    (t.getV 0xF#4).toNat = (if (s.getV x).toNat + (s.getV y).toNat > 255 then 1 else 0) ∧
    RegsExcept [x, 0xF#4] s t ∧ t.pc = s.pc + 2 ∧ Frame [.v, .pc] s t

/-- 41_alu.md R76 and R78: VF is NOT borrow, by comparison of the operands, and its write is last (D15's order). -/
def Obligations.SubtractionsBorrow : Prop :=
  ∀ (x y : Nibble) (s : State),
    (∃ t, exec (.subReg x y) s = .next t ∧
      (x ≠ 0xF#4 → ((t.getV x).toNat : Int) = ((s.getV x).toNat - (s.getV y).toNat : Int) % 256) ∧
      (t.getV 0xF#4).toNat = (if (s.getV x).toNat < (s.getV y).toNat then 0 else 1) ∧
      RegsExcept [x, 0xF#4] s t ∧ t.pc = s.pc + 2 ∧ Frame [.v, .pc] s t) ∧
    (∃ t, exec (.subn x y) s = .next t ∧
      (x ≠ 0xF#4 → ((t.getV x).toNat : Int) = ((s.getV y).toNat - (s.getV x).toNat : Int) % 256) ∧
      (t.getV 0xF#4).toNat = (if (s.getV y).toNat < (s.getV x).toNat then 0 else 1) ∧
      RegsExcept [x, 0xF#4] s t ∧ t.pc = s.pc + 2 ∧ Frame [.v, .pc] s t)

/-- 41_alu.md R77 and R79: the source that SHIFT_SRC selects (00_scope.md R8), shifted by one bit, and the bit shifted
out in VF, whose write is last. `Config.shiftSrc` has no body, so both settings are covered (decision D4, log
entry 3). -/
def Obligations.ShiftsMoveOneBit : Prop :=
  ∀ (x y : Nibble) (s : State), ∃ b : Byte,
    ((Config.shiftSrc = .vy ∧ b = s.getV y) ∨ (Config.shiftSrc = .vx ∧ b = s.getV x)) ∧
    (∃ t, exec (.shr x y) s = .next t ∧ (x ≠ 0xF#4 → (t.getV x).toNat = b.toNat / 2) ∧
      (t.getV 0xF#4).toNat = b.toNat % 2 ∧ RegsExcept [x, 0xF#4] s t ∧ t.pc = s.pc + 2 ∧ Frame [.v, .pc] s t) ∧
    (∃ t, exec (.shl x y) s = .next t ∧ (x ≠ 0xF#4 → (t.getV x).toNat = b.toNat * 2 % 256) ∧
      (t.getV 0xF#4).toNat = b.toNat / 128 ∧ RegsExcept [x, 0xF#4] s t ∧ t.pc = s.pc + 2 ∧ Frame [.v, .pc] s t)

/-- 41_alu.md R80: the draw AND NN, whatever the draw (a free value: log entry 2), and a fresh draw each time. That
the distribution is left open is decision D24; the counter of draws is the model's own. -/
def Obligations.RandomIsMasked : Prop :=
  ∀ (x : Nibble) (nn : Byte) (s : State), ∃ t, exec (.rnd x nn) s = .next t ∧
    (∀ k : Nat, (t.getV x).getLsbD k = ((Config.rng s.draws).getLsbD k && nn.getLsbD k)) ∧
    t.draws = s.draws + 1 ∧ RegsExcept [x] s t ∧ t.pc = s.pc + 2 ∧ Frame [.v, .pc, .draws] s t

/-! ## Index register and memory (42_index_memory.md) -/

/-- 42_index_memory.md R82. -/
def Obligations.LdISetsIndex : Prop :=
  ∀ (nnn : Addr) (s : State), ∃ t, exec (.ldI nnn) s = .next t ∧ t.i.toNat = nnn.toNat ∧
    t.pc = s.pc + 2 ∧ Frame [.i, .pc] s t

/-- 42_index_memory.md R83; that the sum is kept to 16 bits and not truncated to 12 is decision D10. -/
def Obligations.AddIWrapsAtSixteenBits : Prop :=
  ∀ (x : Nibble) (s : State), ∃ t, exec (.addI x) s = .next t ∧ t.i.toNat = (s.i.toNat + (s.getV x).toNat) % 2 ^ 16 ∧
    t.pc = s.pc + 2 ∧ Frame [.i, .pc] s t

/-- 42_index_memory.md R84; FONT_BASE is decision D2, and that the digit is not masked is decision D19. While the font
stands as Reset left it, I then points at the five rows of the digit's glyph (10_state.md R31), for every FONT_DATA. -/
def Obligations.LdFPointsAtGlyph : Prop :=
  ∀ (x : Nibble) (s : State), ∃ t, exec (.ldF x) s = .next t ∧ t.i.toNat = 0x050 + 5 * (s.getV x).toNat ∧
    t.pc = s.pc + 2 ∧ Frame [.i, .pc] s t ∧
    ∀ (d : Fin 16) (r : Fin 5), (s.getV x).toNat = d.val →
      (∀ a : Nat, 0x050 ≤ a → a < 0x0A0 → s.memRead a = State.reset.memRead a) →
      t.memRead (t.i.toNat + r.val) = Config.fontData.glyphRow d r

/-- 42_index_memory.md R85; that an out-of-range store writes nothing is decision D12. -/
def Obligations.BcdStoresDigits : Prop :=
  ∀ x : Nibble,
    (∀ s : State, s.i.toNat + 2 > 0xFFF →
      ∃ t, exec (.ldB x) s = .next t ∧ Halts (.memOutOfRange (max s.i.toNat 0x1000)) s t) ∧
    ∀ s : State, s.MemCanonical → s.i.toNat + 2 ≤ 0xFFF →
      ∃ t, exec (.ldB x) s = .next t ∧
        (t.memRead s.i.toNat).toNat = (s.getV x).toNat / 100 ∧
        (t.memRead (s.i.toNat + 1)).toNat = (s.getV x).toNat / 10 % 10 ∧
        (t.memRead (s.i.toNat + 2)).toNat = (s.getV x).toNat % 10 ∧
        MemExcept s.i.toNat 3 s t ∧ t.pc = s.pc + 2 ∧ Frame [.mem, .pc] s t

/-- 42_index_memory.md R86. -/
def Obligations.DumpStoresRegisters : Prop :=
  ∀ x : Nibble,
    (∀ s : State, s.i.toNat + x.toNat > 0xFFF →
      ∃ t, exec (.ldMemVx x) s = .next t ∧ Halts (.memOutOfRange (max s.i.toNat 0x1000)) s t) ∧
    ∀ s : State, s.MemCanonical → s.i.toNat + x.toNat ≤ 0xFFF →
      ∃ t, exec (.ldMemVx x) s = .next t ∧
        (∀ r : Nibble, r.toNat ≤ x.toNat → t.memRead (s.i.toNat + r.toNat) = s.getV r) ∧
        MemExcept s.i.toNat (x.toNat + 1) s t ∧ t.pc = s.pc + 2 ∧ Frame [.mem, .pc] s t

/-- 42_index_memory.md R87; the range check on a read is decision D11, its precision decision D12. -/
def Obligations.LoadReadsRegisters : Prop :=
  ∀ x : Nibble,
    (∀ s : State, s.i.toNat + x.toNat > 0xFFF →
      ∃ t, exec (.ldVxMem x) s = .next t ∧ Halts (.memOutOfRange (max s.i.toNat 0x1000)) s t) ∧
    ∀ s : State, s.i.toNat + x.toNat ≤ 0xFFF →
      ∃ t, exec (.ldVxMem x) s = .next t ∧
        (∀ r : Nibble, r.toNat ≤ x.toNat → t.getV r = s.memRead (s.i.toNat + r.toNat)) ∧
        (∀ r : Nibble, x.toNat < r.toNat → t.getV r = s.getV r) ∧
        t.pc = s.pc + 2 ∧ Frame [.v, .pc] s t

/-- The source's round trip in 95_test_vectors.md S10: a dump and a later load at the same I give back V0..Vx bit for
bit, whatever happened to the registers between, and I is unchanged by both. -/
def Obligations.DumpThenLoadRestores : Prop :=
  ∀ (x : Nibble) (s : State), s.MemCanonical → s.i.toNat + x.toNat ≤ 0xFFF →
    ∃ t, exec (.ldMemVx x) s = .next t ∧ t.i = s.i ∧
      ∀ t' : State, t'.i = t.i → (∀ a : Nat, t'.memRead a = t.memRead a) →
        ∃ u, exec (.ldVxMem x) t' = .next u ∧ u.i = s.i ∧
          ∀ r : Nibble, r.toNat ≤ x.toNat → u.getV r = s.getV r

/-- 20_memory.md R45 and 70_reset_and_hazards.md R125 (decision D27): after a Step that executes FX55 or FX33, every
fetch, at the next PC or any other, odd or even, reads the stored bytes where they lie and the old bytes elsewhere. The
Step stores what its registers held even where it stores over its own word. -/
def Obligations.StoreIsFetchedNext : Prop :=
  ∀ (x : Nibble) (s : State) (w : Word), s.MemCanonical → s.Ready → s.fetch = .ok w →
    (decodeWord w = .ok (.ldMemVx x) → s.i.toNat + x.toNat ≤ 0xFFF →
      ∃ t, step s = .next t ∧ t.pc = s.pc + 2 ∧
        ∀ u : State, u.mem = t.mem → u.pc.toNat + 1 ≤ 0xFFF →
          u.fetch = .ok (s.dumpedByte x u.pc.toNat ++ s.dumpedByte x (u.pc.toNat + 1))) ∧
    (decodeWord w = .ok (.ldB x) → s.i.toNat + 2 ≤ 0xFFF →
      ∃ t, step s = .next t ∧ t.pc = s.pc + 2 ∧
        ∀ u : State, u.mem = t.mem → u.pc.toNat + 1 ≤ 0xFFF →
          u.fetch = .ok (s.bcdByte (s.getV x) u.pc.toNat ++ s.bcdByte (s.getV x) (u.pc.toNat + 1)))

/-! ## Display (43_display.md) -/

/-- 43_display.md R88. -/
def Obligations.ClsClearsScreen : Prop :=
  ∀ s : State, ∃ t, exec .cls s = .next t ∧ (∀ idx : Nat, t.fb.cell idx = false) ∧ t.changed = true ∧
    t.pc = s.pc + 2 ∧ Frame [.fb, .changed, .pc] s t

/-- 43_display.md R89 and R90. Every cell under a set sprite bit flips, wrapping per pixel (decision D17), and no
other; VF tells whether a cell went from on to off; the origin is read before VF is written (decision D15); N = 0
draws nothing and cannot fault (decision D18); an out-of-range sprite changes nothing (decisions D11, D12). -/
def Obligations.DrawFlipsCoveredCells : Prop :=
  ∀ x y n : Nibble,
    (∀ s : State, n ≠ 0 → s.i.toNat + n.toNat - 1 > 0xFFF →
      ∃ t, exec (.drw x y n) s = .next t ∧ Halts (.memOutOfRange (max s.i.toNat 0x1000)) s t) ∧
    ∀ s : State, n = 0 ∨ s.i.toNat + n.toNat - 1 ≤ 0xFFF →
      ∃ t, exec (.drw x y n) s = .next t ∧
        (∀ idx : Nat, (t.fb.cell idx ≠ s.fb.cell idx ↔ Covered s (s.getV x) (s.getV y) n.toNat idx)) ∧
        ((∃ idx : Nat, s.fb.cell idx = true ∧ t.fb.cell idx = false) → t.getV 0xF#4 = 1) ∧
        ((∀ idx : Nat, s.fb.cell idx = true → t.fb.cell idx = true) → t.getV 0xF#4 = 0) ∧
        t.changed = true ∧ RegsExcept [0xF#4] s t ∧ t.pc = s.pc + 2 ∧ Frame [.v, .fb, .changed, .pc] s t

/-- The source's collision property in 95_test_vectors.md S7, for every sprite: drawn twice at the same origin it
leaves the screen as it was, and on a clear screen the second draw collides exactly if the sprite has a set bit. The
origin registers are not VF, which the first draw overwrites. -/
def Obligations.DrawTwiceErases : Prop :=
  ∀ (x y n : Nibble) (s : State), x ≠ 0xF#4 → y ≠ 0xF#4 → (n = 0 ∨ s.i.toNat + n.toNat - 1 ≤ 0xFFF) →
    ∃ t u, exec (.drw x y n) s = .next t ∧ exec (.drw x y n) t = .next u ∧ u.fb = s.fb ∧
      ((∀ idx : Nat, s.fb.cell idx = false) →
        (u.getV 0xF#4 = 1 ↔ ∃ idx : Nat, Covered s (s.getV x) (s.getV y) n.toNat idx))

/-! ## Keypad and timers (44_timers_keys.md, 60_exceptions.md) -/

/-- 44_timers_keys.md R91, R92 and R93; that a value past 0x0F is fatal is decision D20. -/
def Obligations.KeySkips : Prop :=
  ∀ x : Nibble,
    (∀ s : State, (s.getV x).toNat > 0x0F →
      (∃ t, exec (.skp x) s = .next t ∧ Halts (.keyIndexOutOfRange (s.getV x)) s t) ∧
      (∃ t, exec (.sknp x) s = .next t ∧ Halts (.keyIndexOutOfRange (s.getV x)) s t)) ∧
    ∀ (s : State) (k : Nibble), (s.getV x).toNat = k.toNat →
      (∃ t, exec (.skp x) s = .next t ∧ t.pc = s.pc + (if s.getKey k = true then 4 else 2) ∧ Frame [.pc] s t) ∧
      (∃ t, exec (.sknp x) s = .next t ∧ t.pc = s.pc + (if s.getKey k = false then 4 else 2) ∧ Frame [.pc] s t)

/-- 44_timers_keys.md R94, R96 and R97. -/
def Obligations.TimerMoves : Prop :=
  ∀ (x : Nibble) (s : State),
    (∃ t, exec (.ldVxDt x) s = .next t ∧ t.getV x = s.dt ∧ RegsExcept [x] s t ∧ t.pc = s.pc + 2 ∧
      Frame [.v, .pc] s t) ∧
    (∃ t, exec (.ldDtVx x) s = .next t ∧ t.dt = s.getV x ∧ t.pc = s.pc + 2 ∧ Frame [.dt, .pc] s t) ∧
    (∃ t, exec (.ldStVx x) s = .next t ∧ t.st = s.getV x ∧ t.pc = s.pc + 2 ∧ Frame [.st, .pc] s t)

/-- 44_timers_keys.md R95, the executing Step: the wait begins, PC is not advanced, the keypad is not sampled
(decision D21). -/
def Obligations.KeyWaitBegins : Prop :=
  ∀ (x : Nibble) (s : State), ∃ t, exec (.ldVxK x) s = .next t ∧ t.await = true ∧ t.awaitReg = x ∧
    Frame [.await, .awaitReg] s t

/-- 44_timers_keys.md R95 and 30_encoding.md R58, the later Steps (decision D21): with no key held the Step is Waiting
and changes nothing; otherwise the least held key is taken, and nothing is fetched. -/
def Obligations.KeyWaitResolves : Prop :=
  ∀ s : State, s.run = .running → s.await = true →
    ((∀ k : Nibble, s.getKey k = false) → step s = .next s ∧ stepResult s = .waiting) ∧
    ∀ k : Nibble, s.getKey k = true → (∀ j : Nibble, j.toNat < k.toNat → s.getKey j = false) →
      stepResult s = .ok ∧
      ∃ t, step s = .next t ∧ (t.getV s.awaitReg).toNat = k.toNat ∧ RegsExcept [s.awaitReg] s t ∧
        t.await = false ∧ t.pc = s.pc + 2 ∧ Frame [.v, .await, .pc] s t

/-- 60_exceptions.md R107: each timer is decremented by one if nonzero and holds at 0, in every RUN and AWAIT state. -/
def Obligations.TickDecrementsTimers : Prop :=
  ∀ s : State,
    (transact .tick s).dt.toNat = s.dt.toNat - 1 ∧ (transact .tick s).st.toNat = s.st.toNat - 1 ∧
    Frame [.dt, .st] s (transact .tick s) ∧ respond .tick s = .tone (decide (s.st.toNat = 1))

/-- The source's timer decay in 95_test_vectors.md S9 for any count (60_exceptions.md R107): n Ticks take a timer down by
n and never below 0; and the tone (R108, decision D23) sounds in such a run exactly once, on the Tick that takes ST
from 1 to 0. -/
def Obligations.TimersDecayAndToneOnce : Prop :=
  ∀ (n : Nat) (s : State),
    (runTransactions (List.replicate n .tick) s).dt.toNat = s.dt.toNat - n ∧
    (runTransactions (List.replicate n .tick) s).st.toNat = s.st.toNat - n ∧
    Frame [.dt, .st] s (runTransactions (List.replicate n .tick) s) ∧
    respond .tick (runTransactions (List.replicate n .tick) s) = .tone (decide (s.st.toNat = n + 1))

/-! ## Step, errors, halt (30_encoding.md, 60_exceptions.md) -/

/-- 30_encoding.md R58: a ready core whose fetched word decodes to `i` executes `i`; nothing is done around it. -/
def Obligations.StepRunsDecodedInstruction : Prop :=
  ∀ (s : State) (w : Word) (i : Instr), s.Ready → s.fetch = .ok w → decodeWord w = .ok i → step s = exec i s

/-- 20_memory.md R34 and 30_encoding.md R57: the big-endian word at PC, at every PC, odd ones included (decision D9);
past the last word the fetch is fatal (decisions D8, D11) and the Step returns that. -/
def Obligations.FetchIsBigEndian : Prop :=
  (∀ s : State, s.pc.toNat + 1 ≤ 0xFFF → ∃ w : Word, s.fetch = .ok w ∧
    w.toNat = 256 * (s.memRead s.pc.toNat).toNat + (s.memRead (s.pc.toNat + 1)).toNat) ∧
  ∀ s : State, s.Ready → s.pc.toNat + 1 > 0xFFF →
    ∃ t, step s = .next t ∧ Halts (.memOutOfRange (max s.pc.toNat 0x1000)) s t ∧
      stepResult s = .fatal (.memOutOfRange (max s.pc.toNat 0x1000))

/-- 30_encoding.md R54 for an `Unknown` word, and 60_exceptions.md R99 with 40_flow.md R59 for SYS (decisions D6,
D30): the diagnostic names the instruction's address and word, PC advances by 2, and nothing else changes. -/
def Obligations.DecodeErrorIsNonFatal : Prop :=
  ∀ (s : State) (w : Word), s.Ready → s.fetch = .ok w →
    ((∃ r, decodeWord w = .error r) ∨ ∃ nnn, decodeWord w = .ok (.sys nnn)) →
    ∃ t, step s = .next t ∧ t.pc = s.pc + 2 ∧ Frame [.pc] s t ∧ stepResult s = .decodeError s.pc w

/-- 60_exceptions.md R100 (decisions D12, D36): whatever halts a running core, the state is the state before the Step
but for RUN and ERR, and the Step returns the recorded error. -/
def Obligations.FatalErrorsArePrecise : Prop :=
  ∀ s t : State, s.run = .running → step s = .next t → t.run = .halted →
    ∃ e, t = { s with run := .halted, err := some e } ∧ stepResult s = .fatal e

/-- 60_exceptions.md R101 and R105 (decisions D29, D36): a Step of a halted core changes nothing and returns Halted,
and no transaction but Reset leaves HALTED or changes ERR. -/
def Obligations.OnlyResetLeavesHalted : Prop :=
  ∀ s : State, s.run = .halted →
    step s = .next s ∧ stepResult s = .halted ∧
    (∀ τ : Transaction, τ ≠ .reset → (transact τ s).run = .halted ∧ (transact τ s).err = s.err) ∧
    (transact .reset s).run = .running ∧ (transact .reset s).err = none

/-- No state makes a step stop: every error of 60_exceptions.md R98 has an effect, and decoding is total
(30_encoding.md R49). -/
def Obligations.StepAlwaysAnswersNext : Prop :=
  (∀ (i : Instr) (s : State), ∃ t, exec i s = .next t) ∧ ∀ s : State, ∃ t, step s = .next t

/-! ## Who may change what (10_state.md) -/

/-- 10_state.md R23 to R25: FB is "mutated only by the clear-screen and draw-sprite opcodes", they alone set CHANGED,
no Step clears it, and the keypad is "read-only from the executor's perspective". -/
def Obligations.WhoPaintsAndWhoPressesKeys : Prop :=
  ∀ s t : State, step s = .next t → t.key = s.key ∧
    (t.fb ≠ s.fb ∨ t.changed ≠ s.changed →
      ∃ w i, s.fetch = .ok w ∧ decodeWord w = .ok i ∧ (i = .cls ∨ ∃ x y n, i = .drw x y n)) ∧
    (s.changed = true → t.changed = true)

/-- 10_state.md R19: no instruction changes SP or STACK except CALL and RET; RET changes no slot, and CALL only the slot
at SP. -/
def Obligations.OnlyCallAndRetTouchStack : Prop :=
  ∀ (i : Instr) (s t : State), exec i s = .next t →
    (t.sp ≠ s.sp ∨ t.stack ≠ s.stack → i = .ret ∨ ∃ nnn, i = .call nnn) ∧
    (t.stack ≠ s.stack → ∃ nnn, i = .call nnn) ∧
    ∀ k : Fin Config.stackDepth, k.val ≠ s.sp.val → t.stack[k] = s.stack[k]

/-- 10_state.md R16, R20 and R21 and 20_memory.md R38: which instructions write I, DT, ST and memory. -/
def Obligations.WritersOfIndexTimersMemory : Prop :=
  ∀ (i : Instr) (s t : State), exec i s = .next t →
    (t.i ≠ s.i → (∃ nnn, i = .ldI nnn) ∨ (∃ x, i = .addI x) ∨ ∃ x, i = .ldF x) ∧
    (t.dt ≠ s.dt → ∃ x, i = .ldDtVx x) ∧
    (t.st ≠ s.st → ∃ x, i = .ldStVx x) ∧
    (t.mem ≠ s.mem → (∃ x, i = .ldB x) ∨ ∃ x, i = .ldMemVx x)

/-- 10_state.md R14 and R15: VF is written as a flag by 8XY4, 8XY5, 8XY6, 8XY7, 8XYE and DXYN, and otherwise only as a
destination register. -/
def Obligations.WritersOfVF : Prop :=
  ∀ (i : Instr) (s t : State), exec i s = .next t → t.getV 0xF#4 ≠ s.getV 0xF#4 →
    (∃ x y, i = .addReg x y ∨ i = .subReg x y ∨ i = .shr x y ∨ i = .subn x y ∨ i = .shl x y) ∨
    (∃ x y n, i = .drw x y n) ∨
    (∃ nn, i = .ldImm 0xF#4 nn ∨ i = .addImm 0xF#4 nn ∨ i = .rnd 0xF#4 nn) ∨
    (∃ y, i = .ldReg 0xF#4 y ∨ i = .orReg 0xF#4 y ∨ i = .andReg 0xF#4 y ∨ i = .xorReg 0xF#4 y) ∨
    i = .ldVxDt 0xF#4 ∨ i = .ldVxMem 0xF#4

/-- 10_state.md R21 ("no instruction reads it") and R28: ST, CHANGED and ERR flow into nothing else. Two states that
differ only there step to states that differ only there. -/
def Obligations.HostOnlyStateIsNotRead : Prop :=
  ∀ (s t : State) (b : Byte) (c : Bool) (e : Option FatalError), step s = .next t →
    ∃ u, step { s with st := b, changed := c, err := e } = .next u ∧
      { u with st := t.st, changed := t.changed, err := t.err } = t

/-- 10_state.md R19: "Slots at index ≥ SP hold stale values, and no rule reads them". Two states that agree but for
stale slots step to states that agree but for stale slots. -/
def Obligations.StaleSlotsAreNotRead : Prop :=
  ∀ (s t : State) (stale : Vector Word Config.stackDepth), step s = .next t →
    (∀ k : Fin Config.stackDepth, k.val < s.sp.val → stale[k] = s.stack[k]) →
    ∃ u, step { s with stack := stale } = .next u ∧ { u with stack := t.stack } = t ∧
      ∀ k : Fin Config.stackDepth, k.val < t.sp.val → u.stack[k] = t.stack[k]

/-! ## Invariants -/

/-- The canonical form of memory is kept by every step. -/
def Obligations.StepKeepsMemoryCanonical : Prop :=
  ∀ s t : State, s.MemCanonical → step s = .next t → t.MemCanonical

/-- 10_state.md R17: PC never wraps; the bound 0x10FE, with what carries it, is kept by every step. -/
def Obligations.StepKeepsPcBounded : Prop :=
  ∀ s t : State, s.PcBounded → step s = .next t → t.PcBounded

/-- 10_state.md R27 and 60_exceptions.md R98: RUN and ERR agree and ERR holds a value of R98's table, after every
step. -/
def Obligations.StepKeepsErrRecorded : Prop :=
  ∀ s t : State, s.ErrRecorded → step s = .next t → t.ErrRecorded

/-- The three invariants hold at reset. -/
def Obligations.InvariantsHoldAtReset : Prop :=
  State.reset.MemCanonical ∧ State.reset.PcBounded ∧ State.reset.ErrRecorded

/-- From every state that meets the three invariants, reached or not, every transaction of 60_exceptions.md R114 leads
to a state that meets them, LoadRom of any image among them; so they hold whatever the host issues in whatever order
(R109), and no run takes PC past 0x10FE. Rests on the reset values (log entry 1), the canonical form (log entry 7) and
the reading of a run as a list of transactions (log entry 10). -/
def Obligations.ReachableStatesAreSound : Prop :=
  (∀ (τ : Transaction) (s : State), s.MemCanonical → s.PcBounded → s.ErrRecorded →
    (transact τ s).MemCanonical ∧ (transact τ s).PcBounded ∧ (transact τ s).ErrRecorded) ∧
  ∀ s : State, Reachable s → s.MemCanonical ∧ s.PcBounded ∧ s.ErrRecorded

/-! ## Encoding (30_encoding.md) -/

/-- Decoding the two bytes of a well-formed instruction gives it back and leaves the rest of the bytes. -/
def Obligations.DecodeOfEncode : Prop :=
  ∀ (i : Instr) (rest : List Byte), WellFormed i = true →
    decode (encodeBytes i ++ rest) = .ok (i, rest) ∧ decodeTableWord 16 (encode i).toNat = some i

/-- A word that decodes is the encoding of what it decodes to, so it matches at most one row of 30_encoding.md R51, and
the two words of R52 never decode as SYS. -/
def Obligations.EncodeOfDecode : Prop :=
  ∀ (w : Word) (i : Instr), decodeWord w = .ok i → WellFormed i = true ∧ encode i = w

/-- 30_encoding.md R51: every row's pattern, at every value of its fields, decodes to that row. The numeric opcode
values are decision D5 (log entry 6). -/
def Obligations.TableRowsDecode : Prop :=
  (∀ nnn : Addr, sysAddrOk nnn → decodeWord (0x0#4 ++ nnn) = .ok (.sys nnn)) ∧
  decodeWord (0x0#4 ++ 0x0E0#12) = .ok .cls ∧ decodeWord (0x0#4 ++ 0x0EE#12) = .ok .ret ∧
  (∀ nnn : Addr, decodeWord (0x1#4 ++ nnn) = .ok (.jp nnn) ∧ decodeWord (0x2#4 ++ nnn) = .ok (.call nnn) ∧
    decodeWord (0xA#4 ++ nnn) = .ok (.ldI nnn) ∧ decodeWord (0xB#4 ++ nnn) = .ok (.jpV0 nnn)) ∧
  (∀ (x : Nibble) (nn : Byte),
    decodeWord (0x3#4 ++ x ++ nn) = .ok (.seImm x nn) ∧ decodeWord (0x4#4 ++ x ++ nn) = .ok (.sneImm x nn) ∧
    decodeWord (0x6#4 ++ x ++ nn) = .ok (.ldImm x nn) ∧ decodeWord (0x7#4 ++ x ++ nn) = .ok (.addImm x nn) ∧
    decodeWord (0xC#4 ++ x ++ nn) = .ok (.rnd x nn)) ∧
  (∀ x y n : Nibble,
    decodeWord (0x5#4 ++ x ++ y ++ 0x0#4) = .ok (.seReg x y) ∧
    decodeWord (0x8#4 ++ x ++ y ++ 0x0#4) = .ok (.ldReg x y) ∧
    decodeWord (0x8#4 ++ x ++ y ++ 0x1#4) = .ok (.orReg x y) ∧
    decodeWord (0x8#4 ++ x ++ y ++ 0x2#4) = .ok (.andReg x y) ∧
    decodeWord (0x8#4 ++ x ++ y ++ 0x3#4) = .ok (.xorReg x y) ∧
    decodeWord (0x8#4 ++ x ++ y ++ 0x4#4) = .ok (.addReg x y) ∧
    decodeWord (0x8#4 ++ x ++ y ++ 0x5#4) = .ok (.subReg x y) ∧
    decodeWord (0x8#4 ++ x ++ y ++ 0x6#4) = .ok (.shr x y) ∧
    decodeWord (0x8#4 ++ x ++ y ++ 0x7#4) = .ok (.subn x y) ∧
    decodeWord (0x8#4 ++ x ++ y ++ 0xE#4) = .ok (.shl x y) ∧
    decodeWord (0x9#4 ++ x ++ y ++ 0x0#4) = .ok (.sneReg x y) ∧
    decodeWord (0xD#4 ++ x ++ y ++ n) = .ok (.drw x y n)) ∧
  ∀ x : Nibble,
    decodeWord (0xE#4 ++ x ++ 0x9E#8) = .ok (.skp x) ∧ decodeWord (0xE#4 ++ x ++ 0xA1#8) = .ok (.sknp x) ∧
    decodeWord (0xF#4 ++ x ++ 0x07#8) = .ok (.ldVxDt x) ∧ decodeWord (0xF#4 ++ x ++ 0x0A#8) = .ok (.ldVxK x) ∧
    decodeWord (0xF#4 ++ x ++ 0x15#8) = .ok (.ldDtVx x) ∧ decodeWord (0xF#4 ++ x ++ 0x18#8) = .ok (.ldStVx x) ∧
    decodeWord (0xF#4 ++ x ++ 0x1E#8) = .ok (.addI x) ∧ decodeWord (0xF#4 ++ x ++ 0x29#8) = .ok (.ldF x) ∧
    decodeWord (0xF#4 ++ x ++ 0x33#8) = .ok (.ldB x) ∧ decodeWord (0xF#4 ++ x ++ 0x55#8) = .ok (.ldMemVx x) ∧
    decodeWord (0xF#4 ++ x ++ 0x65#8) = .ok (.ldVxMem x)

/-- 30_encoding.md R53 (decision D7): exactly these words are `Unknown`. -/
def Obligations.UnknownWordsAreThose : Prop :=
  ∀ w : Word, decodeWord w = .error (.unknown w) ↔
    ((w.toNat / 0x1000 = 0x5 ∨ w.toNat / 0x1000 = 0x9) ∧ w.toNat % 0x10 ≠ 0) ∨
    (w.toNat / 0x1000 = 0x8 ∧ w.toNat % 0x10 ∈ [0x8, 0x9, 0xA, 0xB, 0xC, 0xD, 0xF]) ∨
    (w.toNat / 0x1000 = 0xE ∧ w.toNat % 0x100 ∉ [0x9E, 0xA1]) ∨
    (w.toNat / 0x1000 = 0xF ∧ w.toNat % 0x100 ∉ [0x07, 0x0A, 0x15, 0x18, 0x1E, 0x29, 0x33, 0x55, 0x65])

/-- Words written out from 30_encoding.md R51 decode to what they stand for, one or more per family. -/
def Obligations.SpecWordsDecode : Prop :=
  decodeWord 0x0234 = .ok (.sys 0x234) ∧ decodeWord 0x00E0 = .ok .cls ∧ decodeWord 0x00EE = .ok .ret ∧
  decodeWord 0x2300 = .ok (.call 0x300) ∧ decodeWord 0x332A = .ok (.seImm 3 0x2A) ∧
  decodeWord 0x6A42 = .ok (.ldImm 0xA 0x42) ∧ decodeWord 0x8F14 = .ok (.addReg 0xF 1) ∧
  decodeWord 0x8016 = .ok (.shr 0 1) ∧ decodeWord 0xC30F = .ok (.rnd 3 0x0F) ∧
  decodeWord 0xF255 = .ok (.ldMemVx 2) ∧ decodeWord 0xD125 = .ok (.drw 1 2 5) ∧
  decodeWord 0xE59E = .ok (.skp 5) ∧ decodeWord 0xF30A = .ok (.ldVxK 3) ∧
  decodeWord 0x5121 = .error (.unknown 0x5121)

/-- What places an instruction for the host (log entry 12): the next step of the state runs exactly it. -/
def Obligations.PlacedWordRunsNext : Prop :=
  ∀ (s : State) (w : Word) (i : Instr), s.MemCanonical → decodeWord w = .ok i →
    step (s.withFetchWord 16 w.toNat) = exec i (s.withFetchWord 16 w.toNat)

/-! ## Memory, reset and the host's transactions (20_memory.md, 60_exceptions.md, 70_reset_and_hazards.md) -/

/-- 20_memory.md R36 and R43: a read gives the most recent write to its address, no other byte changes, and every
address 0x000-0xFFF is writable, the font included (R42, decision D26). -/
def Obligations.ReadAfterWrite : Prop :=
  ∀ (s : State) (a : Nat) (b : Byte), s.MemCanonical → a ≤ 0xFFF →
    (s.memWrite a b).memRead a = b ∧ MemExcept a 1 s (s.memWrite a b) ∧ (s.memWrite a b).MemCanonical ∧
      Frame [.mem] s (s.memWrite a b)

/-- 70_reset_and_hazards.md R118 with 10_state.md R30: Reset from every state. The source gives PC, DT, ST, SP, FB and
the font's presence; the other values are decision D25 (log entry 1) and FONT_BASE decision D2 (log entry 5).
`Config.fontData` has no body, so every FONT_DATA is covered (decision D3, log entry 4). -/
def Obligations.ResetSetsEveryElement : Prop :=
  ∀ s : State,
    (transact .reset s).pc.toNat = 0x200 ∧ (transact .reset s).dt = 0 ∧ (transact .reset s).st = 0 ∧
    (transact .reset s).sp.val = 0 ∧ (∀ idx : Nat, (transact .reset s).fb.cell idx = false) ∧
    (∀ d : Fin Config.fontSize, (transact .reset s).memRead (0x050 + d.val) = Config.fontData.bytes[d]) ∧
    (∀ a : Nat, a < 0x050 ∨ 0x0A0 ≤ a → (transact .reset s).memRead a = 0) ∧
    (∀ r : Nibble, (transact .reset s).getV r = 0) ∧ (transact .reset s).i = 0 ∧
    (∀ k : Fin Config.stackDepth, (transact .reset s).stack[k] = 0) ∧
    (transact .reset s).changed = false ∧ (∀ k : Nibble, (transact .reset s).getKey k = false) ∧
    (transact .reset s).await = false ∧ (transact .reset s).awaitReg = 0 ∧
    (transact .reset s).run = .running ∧ (transact .reset s).err = none

/-- 70_reset_and_hazards.md R120 (decision D28) and R121: past 3584 bytes LoadRom changes nothing and says so; up to
3584 it copies the image to 0x200 upwards and touches nothing else. -/
def Obligations.LoadRomCopiesOrRejects : Prop :=
  ∀ (bytes : List Byte) (s : State),
    (bytes.length > 3584 → transact (.loadRom bytes) s = s ∧
      respond (.loadRom bytes) s = .romLoadError bytes.length) ∧
    (bytes.length ≤ 3584 → s.MemCanonical →
      (∀ k : Nat, k < bytes.length → (transact (.loadRom bytes) s).memRead (0x200 + k) = bytes.getD k 0) ∧
      MemExcept 0x200 bytes.length s (transact (.loadRom bytes) s) ∧
      Frame [.mem] s (transact (.loadRom bytes) s) ∧ respond (.loadRom bytes) s = .romLoaded)

/-- 60_exceptions.md R110 to R112 and R114 (decisions D1, D33, D37): KeyEvent writes one key, ClearChanged clears
CHANGED, and the two reads return what they name and change nothing. -/
def Obligations.HostReadsAndEvents : Prop :=
  ∀ (s : State) (k : Nibble) (level : Bool),
    ((transact (.keyEvent k level) s).getKey k = level ∧
      (∀ j : Nibble, j ≠ k → (transact (.keyEvent k level) s).getKey j = s.getKey j) ∧
      Frame [.key] s (transact (.keyEvent k level) s)) ∧
    ((transact .clearChanged s).changed = false ∧ Frame [.changed] s (transact .clearChanged s)) ∧
    (transact .readFramebuffer s = s ∧ respond .readFramebuffer s = .framebuffer s.fb s.changed) ∧
    (transact .readStatus s = s ∧ respond .readStatus s = .status s.run s.err s.await s.dt s.st)
end

