-- ==== Sys2Proof/Laws/Decode.lean ====
section
/-! SUPPORT. The decoder on the patterns of 30_encoding.md R51, one lemma per row, from the fields of a word put
together of its fields (R48). -/

namespace Sys2Proof

/-! ### Fields of the three shapes of word: G NNN, G x NN, G x y N -/

theorem fieldG_addr (g : Nibble) (nnn : Addr) : fieldG (g ++ nnn) = g := by
  refine BitVec.eq_of_getLsbD_eq fun k hk => ?_
  simp only [fieldG, BitVec.getLsbD_extractLsb', BitVec.getLsbD_append]
  interval_cases k <;> simp

theorem fieldNNN_addr (g : Nibble) (nnn : Addr) : fieldNNN (g ++ nnn) = nnn := by
  refine BitVec.eq_of_getLsbD_eq fun k hk => ?_
  simp only [fieldNNN, BitVec.getLsbD_extractLsb', BitVec.getLsbD_append]
  interval_cases k <;> simp

theorem fieldG_imm (g x : Nibble) (nn : Byte) : fieldG (g ++ x ++ nn) = g := by
  refine BitVec.eq_of_getLsbD_eq fun k hk => ?_
  simp only [fieldG, BitVec.getLsbD_extractLsb', BitVec.getLsbD_append]
  interval_cases k <;> simp

theorem fieldX_imm (g x : Nibble) (nn : Byte) : fieldX (g ++ x ++ nn) = x := by
  refine BitVec.eq_of_getLsbD_eq fun k hk => ?_
  simp only [fieldX, BitVec.getLsbD_extractLsb', BitVec.getLsbD_append]
  interval_cases k <;> simp

theorem fieldNN_imm (g x : Nibble) (nn : Byte) : fieldNN (g ++ x ++ nn) = nn := by
  refine BitVec.eq_of_getLsbD_eq fun k hk => ?_
  simp only [fieldNN, BitVec.getLsbD_extractLsb', BitVec.getLsbD_append]
  interval_cases k <;> simp

theorem fieldG_reg (g x y n : Nibble) : fieldG (g ++ x ++ y ++ n) = g := by
  refine BitVec.eq_of_getLsbD_eq fun k hk => ?_
  simp only [fieldG, BitVec.getLsbD_extractLsb', BitVec.getLsbD_append]
  interval_cases k <;> simp

theorem fieldX_reg (g x y n : Nibble) : fieldX (g ++ x ++ y ++ n) = x := by
  refine BitVec.eq_of_getLsbD_eq fun k hk => ?_
  simp only [fieldX, BitVec.getLsbD_extractLsb', BitVec.getLsbD_append]
  interval_cases k <;> simp

theorem fieldY_reg (g x y n : Nibble) : fieldY (g ++ x ++ y ++ n) = y := by
  refine BitVec.eq_of_getLsbD_eq fun k hk => ?_
  simp only [fieldY, BitVec.getLsbD_extractLsb', BitVec.getLsbD_append]
  interval_cases k <;> simp

theorem fieldN_reg (g x y n : Nibble) : fieldN (g ++ x ++ y ++ n) = n := by
  refine BitVec.eq_of_getLsbD_eq fun k hk => ?_
  simp only [fieldN, BitVec.getLsbD_extractLsb', BitVec.getLsbD_append]
  interval_cases k <;> simp

/-! ### The rows -/

theorem decode_cls : decodeWord 0x00E0#16 = .ok .cls := by decide

theorem decode_ret : decodeWord 0x00EE#16 = .ok .ret := by decide

theorem addrWord_inj {g : Nibble} {a b : Addr} (h : g ++ a = g ++ b) : a = b := by
  rw [← fieldNNN_addr g a, h, fieldNNN_addr]

theorem decode_sys (nnn : Addr) (h : sysAddrOk nnn) : decodeWord (0x0#4 ++ nnn) = .ok (.sys nnn) := by
  have h1 : (0x0#4 ++ nnn) ≠ (0x00E0 : Word) := fun he =>
    h.1 (addrWord_inj (g := 0x0#4) (he.trans (by decide : (0x00E0 : Word) = 0x0#4 ++ (0x0E0 : Addr))))
  have h2 : (0x0#4 ++ nnn) ≠ (0x00EE : Word) := fun he =>
    h.2 (addrWord_inj (g := 0x0#4) (he.trans (by decide : (0x00EE : Word) = 0x0#4 ++ (0x0EE : Addr))))
  unfold decodeWord
  rw [fieldG_addr]
  simp only [decodeGroup0]
  rw [if_neg h1, if_neg h2, fieldNNN_addr]

theorem decode_jp (nnn : Addr) : decodeWord (0x1#4 ++ nnn) = .ok (.jp nnn) := by
  simp [decodeWord, fieldG_addr, fieldNNN_addr]

theorem decode_call (nnn : Addr) : decodeWord (0x2#4 ++ nnn) = .ok (.call nnn) := by
  simp [decodeWord, fieldG_addr, fieldNNN_addr]

theorem decode_seImm (x : Nibble) (nn : Byte) : decodeWord (0x3#4 ++ x ++ nn) = .ok (.seImm x nn) := by
  simp [decodeWord, fieldG_imm, fieldX_imm, fieldNN_imm]

theorem decode_sneImm (x : Nibble) (nn : Byte) : decodeWord (0x4#4 ++ x ++ nn) = .ok (.sneImm x nn) := by
  simp [decodeWord, fieldG_imm, fieldX_imm, fieldNN_imm]

theorem decode_seReg (x y : Nibble) : decodeWord (0x5#4 ++ x ++ y ++ 0x0#4) = .ok (.seReg x y) := by
  simp [decodeWord, decodeIfN0, fieldG_reg, fieldX_reg, fieldY_reg, fieldN_reg]

theorem decode_ldImm (x : Nibble) (nn : Byte) : decodeWord (0x6#4 ++ x ++ nn) = .ok (.ldImm x nn) := by
  simp [decodeWord, fieldG_imm, fieldX_imm, fieldNN_imm]

theorem decode_addImm (x : Nibble) (nn : Byte) : decodeWord (0x7#4 ++ x ++ nn) = .ok (.addImm x nn) := by
  simp [decodeWord, fieldG_imm, fieldX_imm, fieldNN_imm]

theorem decode_ldReg (x y : Nibble) : decodeWord (0x8#4 ++ x ++ y ++ 0x0#4) = .ok (.ldReg x y) := by
  simp [decodeWord, decodeGroup8, fieldG_reg, fieldX_reg, fieldY_reg, fieldN_reg]

theorem decode_orReg (x y : Nibble) : decodeWord (0x8#4 ++ x ++ y ++ 0x1#4) = .ok (.orReg x y) := by
  simp [decodeWord, decodeGroup8, fieldG_reg, fieldX_reg, fieldY_reg, fieldN_reg]

theorem decode_andReg (x y : Nibble) : decodeWord (0x8#4 ++ x ++ y ++ 0x2#4) = .ok (.andReg x y) := by
  simp [decodeWord, decodeGroup8, fieldG_reg, fieldX_reg, fieldY_reg, fieldN_reg]

theorem decode_xorReg (x y : Nibble) : decodeWord (0x8#4 ++ x ++ y ++ 0x3#4) = .ok (.xorReg x y) := by
  simp [decodeWord, decodeGroup8, fieldG_reg, fieldX_reg, fieldY_reg, fieldN_reg]

theorem decode_addReg (x y : Nibble) : decodeWord (0x8#4 ++ x ++ y ++ 0x4#4) = .ok (.addReg x y) := by
  simp [decodeWord, decodeGroup8, fieldG_reg, fieldX_reg, fieldY_reg, fieldN_reg]

theorem decode_subReg (x y : Nibble) : decodeWord (0x8#4 ++ x ++ y ++ 0x5#4) = .ok (.subReg x y) := by
  simp [decodeWord, decodeGroup8, fieldG_reg, fieldX_reg, fieldY_reg, fieldN_reg]

theorem decode_shr (x y : Nibble) : decodeWord (0x8#4 ++ x ++ y ++ 0x6#4) = .ok (.shr x y) := by
  simp [decodeWord, decodeGroup8, fieldG_reg, fieldX_reg, fieldY_reg, fieldN_reg]

theorem decode_subn (x y : Nibble) : decodeWord (0x8#4 ++ x ++ y ++ 0x7#4) = .ok (.subn x y) := by
  simp [decodeWord, decodeGroup8, fieldG_reg, fieldX_reg, fieldY_reg, fieldN_reg]

theorem decode_shl (x y : Nibble) : decodeWord (0x8#4 ++ x ++ y ++ 0xE#4) = .ok (.shl x y) := by
  simp [decodeWord, decodeGroup8, fieldG_reg, fieldX_reg, fieldY_reg, fieldN_reg]

theorem decode_sneReg (x y : Nibble) : decodeWord (0x9#4 ++ x ++ y ++ 0x0#4) = .ok (.sneReg x y) := by
  simp [decodeWord, decodeIfN0, fieldG_reg, fieldX_reg, fieldY_reg, fieldN_reg]

theorem decode_ldI (nnn : Addr) : decodeWord (0xA#4 ++ nnn) = .ok (.ldI nnn) := by
  simp [decodeWord, fieldG_addr, fieldNNN_addr]

theorem decode_jpV0 (nnn : Addr) : decodeWord (0xB#4 ++ nnn) = .ok (.jpV0 nnn) := by
  simp [decodeWord, fieldG_addr, fieldNNN_addr]

theorem decode_rnd (x : Nibble) (nn : Byte) : decodeWord (0xC#4 ++ x ++ nn) = .ok (.rnd x nn) := by
  simp [decodeWord, fieldG_imm, fieldX_imm, fieldNN_imm]

theorem decode_drw (x y n : Nibble) : decodeWord (0xD#4 ++ x ++ y ++ n) = .ok (.drw x y n) := by
  simp [decodeWord, fieldG_reg, fieldX_reg, fieldY_reg, fieldN_reg]

theorem decode_skp (x : Nibble) : decodeWord (0xE#4 ++ x ++ 0x9E#8) = .ok (.skp x) := by
  simp [decodeWord, decodeGroupE, fieldG_imm, fieldX_imm, fieldNN_imm]

theorem decode_sknp (x : Nibble) : decodeWord (0xE#4 ++ x ++ 0xA1#8) = .ok (.sknp x) := by
  simp [decodeWord, decodeGroupE, fieldG_imm, fieldX_imm, fieldNN_imm]

theorem decode_ldVxDt (x : Nibble) : decodeWord (0xF#4 ++ x ++ 0x07#8) = .ok (.ldVxDt x) := by
  simp [decodeWord, decodeGroupF, fieldG_imm, fieldX_imm, fieldNN_imm]

theorem decode_ldVxK (x : Nibble) : decodeWord (0xF#4 ++ x ++ 0x0A#8) = .ok (.ldVxK x) := by
  simp [decodeWord, decodeGroupF, fieldG_imm, fieldX_imm, fieldNN_imm]

theorem decode_ldDtVx (x : Nibble) : decodeWord (0xF#4 ++ x ++ 0x15#8) = .ok (.ldDtVx x) := by
  simp [decodeWord, decodeGroupF, fieldG_imm, fieldX_imm, fieldNN_imm]

theorem decode_ldStVx (x : Nibble) : decodeWord (0xF#4 ++ x ++ 0x18#8) = .ok (.ldStVx x) := by
  simp [decodeWord, decodeGroupF, fieldG_imm, fieldX_imm, fieldNN_imm]

theorem decode_addI (x : Nibble) : decodeWord (0xF#4 ++ x ++ 0x1E#8) = .ok (.addI x) := by
  simp [decodeWord, decodeGroupF, fieldG_imm, fieldX_imm, fieldNN_imm]

theorem decode_ldF (x : Nibble) : decodeWord (0xF#4 ++ x ++ 0x29#8) = .ok (.ldF x) := by
  simp [decodeWord, decodeGroupF, fieldG_imm, fieldX_imm, fieldNN_imm]

theorem decode_ldB (x : Nibble) : decodeWord (0xF#4 ++ x ++ 0x33#8) = .ok (.ldB x) := by
  simp [decodeWord, decodeGroupF, fieldG_imm, fieldX_imm, fieldNN_imm]

theorem decode_ldMemVx (x : Nibble) : decodeWord (0xF#4 ++ x ++ 0x55#8) = .ok (.ldMemVx x) := by
  simp [decodeWord, decodeGroupF, fieldG_imm, fieldX_imm, fieldNN_imm]

theorem decode_ldVxMem (x : Nibble) : decodeWord (0xF#4 ++ x ++ 0x65#8) = .ok (.ldVxMem x) := by
  simp [decodeWord, decodeGroupF, fieldG_imm, fieldX_imm, fieldNN_imm]

/-! ### A word is its fields put together -/

theorem word_of_addr (w : Word) : fieldG w ++ fieldNNN w = w := by
  refine BitVec.eq_of_getLsbD_eq fun k hk => ?_
  simp only [fieldG, fieldNNN, BitVec.getLsbD_append, BitVec.getLsbD_extractLsb']
  interval_cases k <;> simp

theorem word_of_imm (w : Word) : fieldG w ++ fieldX w ++ fieldNN w = w := by
  refine BitVec.eq_of_getLsbD_eq fun k hk => ?_
  simp only [fieldG, fieldX, fieldNN, BitVec.getLsbD_append, BitVec.getLsbD_extractLsb']
  interval_cases k <;> simp

theorem word_of_reg (w : Word) : fieldG w ++ fieldX w ++ fieldY w ++ fieldN w = w := by
  refine BitVec.eq_of_getLsbD_eq fun k hk => ?_
  simp only [fieldG, fieldX, fieldY, fieldN, BitVec.getLsbD_append, BitVec.getLsbD_extractLsb']
  interval_cases k <;> simp

/-- The two bytes of a word, put back together (20_memory.md R34). -/
theorem wordOfBytes_bytes (w : Word) : wordOfBytes (highByte w) (lowByte w) = w := by
  refine BitVec.eq_of_getLsbD_eq fun k hk => ?_
  simp only [wordOfBytes, highByte, lowByte, BitVec.getLsbD_append, BitVec.getLsbD_extractLsb']
  interval_cases k <;> simp

/-- The fetched word as a number (20_memory.md R34). -/
theorem wordOfBytes_toNat (hi lo : Byte) : (wordOfBytes hi lo).toNat = 256 * hi.toNat + lo.toNat := by
  have hl : lo.toNat < 2 ^ 8 := lo.isLt
  have h : (hi ++ lo).toNat = 256 * hi.toNat + lo.toNat := by
    rw [BitVec.toNat_append, ← Nat.shiftLeft_add_eq_or_of_lt hl, Nat.shiftLeft_eq, Nat.mul_comm]
  exact h

end Sys2Proof
end

