-- ==== Sys2Proof/Laws/State.lean ====
section
/-! SUPPORT. The small lemmas of the state: for each update, what each element reads as after it, true by rfl, so that
no proof unfolds a record update; and the composed operations in terms of them. -/

namespace Sys2Proof.Machine

variable (s : State)

/-! ### `State.memWrite` -/

@[simp] theorem State.memWrite_v (a : Nat) (b : Byte) : (s.memWrite a b).v = s.v := rfl
@[simp] theorem State.memWrite_i (a : Nat) (b : Byte) : (s.memWrite a b).i = s.i := rfl
@[simp] theorem State.memWrite_pc (a : Nat) (b : Byte) : (s.memWrite a b).pc = s.pc := rfl
@[simp] theorem State.memWrite_sp (a : Nat) (b : Byte) : (s.memWrite a b).sp = s.sp := rfl
@[simp] theorem State.memWrite_stack (a : Nat) (b : Byte) : (s.memWrite a b).stack = s.stack := rfl
@[simp] theorem State.memWrite_dt (a : Nat) (b : Byte) : (s.memWrite a b).dt = s.dt := rfl
@[simp] theorem State.memWrite_st (a : Nat) (b : Byte) : (s.memWrite a b).st = s.st := rfl
@[simp] theorem State.memWrite_mem (a : Nat) (b : Byte) : (s.memWrite a b).mem = Memory.write s.mem a b := rfl
@[simp] theorem State.memWrite_fb (a : Nat) (b : Byte) : (s.memWrite a b).fb = s.fb := rfl
@[simp] theorem State.memWrite_changed (a : Nat) (b : Byte) : (s.memWrite a b).changed = s.changed := rfl
@[simp] theorem State.memWrite_key (a : Nat) (b : Byte) : (s.memWrite a b).key = s.key := rfl
@[simp] theorem State.memWrite_await (a : Nat) (b : Byte) : (s.memWrite a b).await = s.await := rfl
@[simp] theorem State.memWrite_awaitReg (a : Nat) (b : Byte) : (s.memWrite a b).awaitReg = s.awaitReg := rfl
@[simp] theorem State.memWrite_run (a : Nat) (b : Byte) : (s.memWrite a b).run = s.run := rfl
@[simp] theorem State.memWrite_err (a : Nat) (b : Byte) : (s.memWrite a b).err = s.err := rfl
@[simp] theorem State.memWrite_draws (a : Nat) (b : Byte) : (s.memWrite a b).draws = s.draws := rfl
@[simp] theorem State.memWrite_getV (a : Nat) (b : Byte) (r : Nibble) : (s.memWrite a b).getV r = s.getV r := rfl
@[simp] theorem State.memWrite_getKey (a : Nat) (b : Byte) (j : Nibble) : (s.memWrite a b).getKey j = s.getKey j := rfl

/-! ### `State.setV` -/

@[simp] theorem State.setV_v (x : Nibble) (b : Byte) : (s.setV x b).v = s.v.set x.toNat b x.isLt := rfl
@[simp] theorem State.setV_i (x : Nibble) (b : Byte) : (s.setV x b).i = s.i := rfl
@[simp] theorem State.setV_pc (x : Nibble) (b : Byte) : (s.setV x b).pc = s.pc := rfl
@[simp] theorem State.setV_sp (x : Nibble) (b : Byte) : (s.setV x b).sp = s.sp := rfl
@[simp] theorem State.setV_stack (x : Nibble) (b : Byte) : (s.setV x b).stack = s.stack := rfl
@[simp] theorem State.setV_dt (x : Nibble) (b : Byte) : (s.setV x b).dt = s.dt := rfl
@[simp] theorem State.setV_st (x : Nibble) (b : Byte) : (s.setV x b).st = s.st := rfl
@[simp] theorem State.setV_mem (x : Nibble) (b : Byte) : (s.setV x b).mem = s.mem := rfl
@[simp] theorem State.setV_fb (x : Nibble) (b : Byte) : (s.setV x b).fb = s.fb := rfl
@[simp] theorem State.setV_changed (x : Nibble) (b : Byte) : (s.setV x b).changed = s.changed := rfl
@[simp] theorem State.setV_key (x : Nibble) (b : Byte) : (s.setV x b).key = s.key := rfl
@[simp] theorem State.setV_await (x : Nibble) (b : Byte) : (s.setV x b).await = s.await := rfl
@[simp] theorem State.setV_awaitReg (x : Nibble) (b : Byte) : (s.setV x b).awaitReg = s.awaitReg := rfl
@[simp] theorem State.setV_run (x : Nibble) (b : Byte) : (s.setV x b).run = s.run := rfl
@[simp] theorem State.setV_err (x : Nibble) (b : Byte) : (s.setV x b).err = s.err := rfl
@[simp] theorem State.setV_draws (x : Nibble) (b : Byte) : (s.setV x b).draws = s.draws := rfl
@[simp] theorem State.setV_memRead (x : Nibble) (b : Byte) (at_ : Nat) : (s.setV x b).memRead at_ = s.memRead at_ := rfl
@[simp] theorem State.setV_getKey (x : Nibble) (b : Byte) (j : Nibble) : (s.setV x b).getKey j = s.getKey j := rfl

/-! ### `State.setI` -/

@[simp] theorem State.setI_v (w : Word) : (s.setI w).v = s.v := rfl
@[simp] theorem State.setI_i (w : Word) : (s.setI w).i = w := rfl
@[simp] theorem State.setI_pc (w : Word) : (s.setI w).pc = s.pc := rfl
@[simp] theorem State.setI_sp (w : Word) : (s.setI w).sp = s.sp := rfl
@[simp] theorem State.setI_stack (w : Word) : (s.setI w).stack = s.stack := rfl
@[simp] theorem State.setI_dt (w : Word) : (s.setI w).dt = s.dt := rfl
@[simp] theorem State.setI_st (w : Word) : (s.setI w).st = s.st := rfl
@[simp] theorem State.setI_mem (w : Word) : (s.setI w).mem = s.mem := rfl
@[simp] theorem State.setI_fb (w : Word) : (s.setI w).fb = s.fb := rfl
@[simp] theorem State.setI_changed (w : Word) : (s.setI w).changed = s.changed := rfl
@[simp] theorem State.setI_key (w : Word) : (s.setI w).key = s.key := rfl
@[simp] theorem State.setI_await (w : Word) : (s.setI w).await = s.await := rfl
@[simp] theorem State.setI_awaitReg (w : Word) : (s.setI w).awaitReg = s.awaitReg := rfl
@[simp] theorem State.setI_run (w : Word) : (s.setI w).run = s.run := rfl
@[simp] theorem State.setI_err (w : Word) : (s.setI w).err = s.err := rfl
@[simp] theorem State.setI_draws (w : Word) : (s.setI w).draws = s.draws := rfl
@[simp] theorem State.setI_getV (w : Word) (r : Nibble) : (s.setI w).getV r = s.getV r := rfl
@[simp] theorem State.setI_memRead (w : Word) (at_ : Nat) : (s.setI w).memRead at_ = s.memRead at_ := rfl
@[simp] theorem State.setI_getKey (w : Word) (j : Nibble) : (s.setI w).getKey j = s.getKey j := rfl

/-! ### `State.setPc` -/

@[simp] theorem State.setPc_v (w : Word) : (s.setPc w).v = s.v := rfl
@[simp] theorem State.setPc_i (w : Word) : (s.setPc w).i = s.i := rfl
@[simp] theorem State.setPc_pc (w : Word) : (s.setPc w).pc = w := rfl
@[simp] theorem State.setPc_sp (w : Word) : (s.setPc w).sp = s.sp := rfl
@[simp] theorem State.setPc_stack (w : Word) : (s.setPc w).stack = s.stack := rfl
@[simp] theorem State.setPc_dt (w : Word) : (s.setPc w).dt = s.dt := rfl
@[simp] theorem State.setPc_st (w : Word) : (s.setPc w).st = s.st := rfl
@[simp] theorem State.setPc_mem (w : Word) : (s.setPc w).mem = s.mem := rfl
@[simp] theorem State.setPc_fb (w : Word) : (s.setPc w).fb = s.fb := rfl
@[simp] theorem State.setPc_changed (w : Word) : (s.setPc w).changed = s.changed := rfl
@[simp] theorem State.setPc_key (w : Word) : (s.setPc w).key = s.key := rfl
@[simp] theorem State.setPc_await (w : Word) : (s.setPc w).await = s.await := rfl
@[simp] theorem State.setPc_awaitReg (w : Word) : (s.setPc w).awaitReg = s.awaitReg := rfl
@[simp] theorem State.setPc_run (w : Word) : (s.setPc w).run = s.run := rfl
@[simp] theorem State.setPc_err (w : Word) : (s.setPc w).err = s.err := rfl
@[simp] theorem State.setPc_draws (w : Word) : (s.setPc w).draws = s.draws := rfl
@[simp] theorem State.setPc_getV (w : Word) (r : Nibble) : (s.setPc w).getV r = s.getV r := rfl
@[simp] theorem State.setPc_memRead (w : Word) (at_ : Nat) : (s.setPc w).memRead at_ = s.memRead at_ := rfl
@[simp] theorem State.setPc_getKey (w : Word) (j : Nibble) : (s.setPc w).getKey j = s.getKey j := rfl

/-! ### `State.setDt` -/

@[simp] theorem State.setDt_v (b : Byte) : (s.setDt b).v = s.v := rfl
@[simp] theorem State.setDt_i (b : Byte) : (s.setDt b).i = s.i := rfl
@[simp] theorem State.setDt_pc (b : Byte) : (s.setDt b).pc = s.pc := rfl
@[simp] theorem State.setDt_sp (b : Byte) : (s.setDt b).sp = s.sp := rfl
@[simp] theorem State.setDt_stack (b : Byte) : (s.setDt b).stack = s.stack := rfl
@[simp] theorem State.setDt_dt (b : Byte) : (s.setDt b).dt = b := rfl
@[simp] theorem State.setDt_st (b : Byte) : (s.setDt b).st = s.st := rfl
@[simp] theorem State.setDt_mem (b : Byte) : (s.setDt b).mem = s.mem := rfl
@[simp] theorem State.setDt_fb (b : Byte) : (s.setDt b).fb = s.fb := rfl
@[simp] theorem State.setDt_changed (b : Byte) : (s.setDt b).changed = s.changed := rfl
@[simp] theorem State.setDt_key (b : Byte) : (s.setDt b).key = s.key := rfl
@[simp] theorem State.setDt_await (b : Byte) : (s.setDt b).await = s.await := rfl
@[simp] theorem State.setDt_awaitReg (b : Byte) : (s.setDt b).awaitReg = s.awaitReg := rfl
@[simp] theorem State.setDt_run (b : Byte) : (s.setDt b).run = s.run := rfl
@[simp] theorem State.setDt_err (b : Byte) : (s.setDt b).err = s.err := rfl
@[simp] theorem State.setDt_draws (b : Byte) : (s.setDt b).draws = s.draws := rfl
@[simp] theorem State.setDt_getV (b : Byte) (r : Nibble) : (s.setDt b).getV r = s.getV r := rfl
@[simp] theorem State.setDt_memRead (b : Byte) (at_ : Nat) : (s.setDt b).memRead at_ = s.memRead at_ := rfl
@[simp] theorem State.setDt_getKey (b : Byte) (j : Nibble) : (s.setDt b).getKey j = s.getKey j := rfl

/-! ### `State.setSt` -/

@[simp] theorem State.setSt_v (b : Byte) : (s.setSt b).v = s.v := rfl
@[simp] theorem State.setSt_i (b : Byte) : (s.setSt b).i = s.i := rfl
@[simp] theorem State.setSt_pc (b : Byte) : (s.setSt b).pc = s.pc := rfl
@[simp] theorem State.setSt_sp (b : Byte) : (s.setSt b).sp = s.sp := rfl
@[simp] theorem State.setSt_stack (b : Byte) : (s.setSt b).stack = s.stack := rfl
@[simp] theorem State.setSt_dt (b : Byte) : (s.setSt b).dt = s.dt := rfl
@[simp] theorem State.setSt_st (b : Byte) : (s.setSt b).st = b := rfl
@[simp] theorem State.setSt_mem (b : Byte) : (s.setSt b).mem = s.mem := rfl
@[simp] theorem State.setSt_fb (b : Byte) : (s.setSt b).fb = s.fb := rfl
@[simp] theorem State.setSt_changed (b : Byte) : (s.setSt b).changed = s.changed := rfl
@[simp] theorem State.setSt_key (b : Byte) : (s.setSt b).key = s.key := rfl
@[simp] theorem State.setSt_await (b : Byte) : (s.setSt b).await = s.await := rfl
@[simp] theorem State.setSt_awaitReg (b : Byte) : (s.setSt b).awaitReg = s.awaitReg := rfl
@[simp] theorem State.setSt_run (b : Byte) : (s.setSt b).run = s.run := rfl
@[simp] theorem State.setSt_err (b : Byte) : (s.setSt b).err = s.err := rfl
@[simp] theorem State.setSt_draws (b : Byte) : (s.setSt b).draws = s.draws := rfl
@[simp] theorem State.setSt_getV (b : Byte) (r : Nibble) : (s.setSt b).getV r = s.getV r := rfl
@[simp] theorem State.setSt_memRead (b : Byte) (at_ : Nat) : (s.setSt b).memRead at_ = s.memRead at_ := rfl
@[simp] theorem State.setSt_getKey (b : Byte) (j : Nibble) : (s.setSt b).getKey j = s.getKey j := rfl

/-! ### `State.paint` -/

@[simp] theorem State.paint_v (fb : Framebuffer) : (s.paint fb).v = s.v := rfl
@[simp] theorem State.paint_i (fb : Framebuffer) : (s.paint fb).i = s.i := rfl
@[simp] theorem State.paint_pc (fb : Framebuffer) : (s.paint fb).pc = s.pc := rfl
@[simp] theorem State.paint_sp (fb : Framebuffer) : (s.paint fb).sp = s.sp := rfl
@[simp] theorem State.paint_stack (fb : Framebuffer) : (s.paint fb).stack = s.stack := rfl
@[simp] theorem State.paint_dt (fb : Framebuffer) : (s.paint fb).dt = s.dt := rfl
@[simp] theorem State.paint_st (fb : Framebuffer) : (s.paint fb).st = s.st := rfl
@[simp] theorem State.paint_mem (fb : Framebuffer) : (s.paint fb).mem = s.mem := rfl
@[simp] theorem State.paint_fb (fb : Framebuffer) : (s.paint fb).fb = fb := rfl
@[simp] theorem State.paint_changed (fb : Framebuffer) : (s.paint fb).changed = true := rfl
@[simp] theorem State.paint_key (fb : Framebuffer) : (s.paint fb).key = s.key := rfl
@[simp] theorem State.paint_await (fb : Framebuffer) : (s.paint fb).await = s.await := rfl
@[simp] theorem State.paint_awaitReg (fb : Framebuffer) : (s.paint fb).awaitReg = s.awaitReg := rfl
@[simp] theorem State.paint_run (fb : Framebuffer) : (s.paint fb).run = s.run := rfl
@[simp] theorem State.paint_err (fb : Framebuffer) : (s.paint fb).err = s.err := rfl
@[simp] theorem State.paint_draws (fb : Framebuffer) : (s.paint fb).draws = s.draws := rfl
@[simp] theorem State.paint_getV (fb : Framebuffer) (r : Nibble) : (s.paint fb).getV r = s.getV r := rfl
@[simp] theorem State.paint_memRead (fb : Framebuffer) (at_ : Nat) : (s.paint fb).memRead at_ = s.memRead at_ := rfl
@[simp] theorem State.paint_getKey (fb : Framebuffer) (j : Nibble) : (s.paint fb).getKey j = s.getKey j := rfl

/-! ### `State.beginWait` -/

@[simp] theorem State.beginWait_v (x : Nibble) : (s.beginWait x).v = s.v := rfl
@[simp] theorem State.beginWait_i (x : Nibble) : (s.beginWait x).i = s.i := rfl
@[simp] theorem State.beginWait_pc (x : Nibble) : (s.beginWait x).pc = s.pc := rfl
@[simp] theorem State.beginWait_sp (x : Nibble) : (s.beginWait x).sp = s.sp := rfl
@[simp] theorem State.beginWait_stack (x : Nibble) : (s.beginWait x).stack = s.stack := rfl
@[simp] theorem State.beginWait_dt (x : Nibble) : (s.beginWait x).dt = s.dt := rfl
@[simp] theorem State.beginWait_st (x : Nibble) : (s.beginWait x).st = s.st := rfl
@[simp] theorem State.beginWait_mem (x : Nibble) : (s.beginWait x).mem = s.mem := rfl
@[simp] theorem State.beginWait_fb (x : Nibble) : (s.beginWait x).fb = s.fb := rfl
@[simp] theorem State.beginWait_changed (x : Nibble) : (s.beginWait x).changed = s.changed := rfl
@[simp] theorem State.beginWait_key (x : Nibble) : (s.beginWait x).key = s.key := rfl
@[simp] theorem State.beginWait_await (x : Nibble) : (s.beginWait x).await = true := rfl
@[simp] theorem State.beginWait_awaitReg (x : Nibble) : (s.beginWait x).awaitReg = x := rfl
@[simp] theorem State.beginWait_run (x : Nibble) : (s.beginWait x).run = s.run := rfl
@[simp] theorem State.beginWait_err (x : Nibble) : (s.beginWait x).err = s.err := rfl
@[simp] theorem State.beginWait_draws (x : Nibble) : (s.beginWait x).draws = s.draws := rfl
@[simp] theorem State.beginWait_getV (x : Nibble) (r : Nibble) : (s.beginWait x).getV r = s.getV r := rfl
@[simp] theorem State.beginWait_memRead (x : Nibble) (at_ : Nat) : (s.beginWait x).memRead at_ = s.memRead at_ := rfl
@[simp] theorem State.beginWait_getKey (x : Nibble) (j : Nibble) : (s.beginWait x).getKey j = s.getKey j := rfl

/-! ### `State.endWait` -/

@[simp] theorem State.endWait_v : (s.endWait).v = s.v := rfl
@[simp] theorem State.endWait_i : (s.endWait).i = s.i := rfl
@[simp] theorem State.endWait_pc : (s.endWait).pc = s.pc := rfl
@[simp] theorem State.endWait_sp : (s.endWait).sp = s.sp := rfl
@[simp] theorem State.endWait_stack : (s.endWait).stack = s.stack := rfl
@[simp] theorem State.endWait_dt : (s.endWait).dt = s.dt := rfl
@[simp] theorem State.endWait_st : (s.endWait).st = s.st := rfl
@[simp] theorem State.endWait_mem : (s.endWait).mem = s.mem := rfl
@[simp] theorem State.endWait_fb : (s.endWait).fb = s.fb := rfl
@[simp] theorem State.endWait_changed : (s.endWait).changed = s.changed := rfl
@[simp] theorem State.endWait_key : (s.endWait).key = s.key := rfl
@[simp] theorem State.endWait_await : (s.endWait).await = false := rfl
@[simp] theorem State.endWait_awaitReg : (s.endWait).awaitReg = s.awaitReg := rfl
@[simp] theorem State.endWait_run : (s.endWait).run = s.run := rfl
@[simp] theorem State.endWait_err : (s.endWait).err = s.err := rfl
@[simp] theorem State.endWait_draws : (s.endWait).draws = s.draws := rfl
@[simp] theorem State.endWait_getV (r : Nibble) : (s.endWait).getV r = s.getV r := rfl
@[simp] theorem State.endWait_memRead (at_ : Nat) : (s.endWait).memRead at_ = s.memRead at_ := rfl
@[simp] theorem State.endWait_getKey (j : Nibble) : (s.endWait).getKey j = s.getKey j := rfl

/-! ### `State.raiseFatal` -/

@[simp] theorem State.raiseFatal_v (e : FatalError) : (s.raiseFatal e).v = s.v := rfl
@[simp] theorem State.raiseFatal_i (e : FatalError) : (s.raiseFatal e).i = s.i := rfl
@[simp] theorem State.raiseFatal_pc (e : FatalError) : (s.raiseFatal e).pc = s.pc := rfl
@[simp] theorem State.raiseFatal_sp (e : FatalError) : (s.raiseFatal e).sp = s.sp := rfl
@[simp] theorem State.raiseFatal_stack (e : FatalError) : (s.raiseFatal e).stack = s.stack := rfl
@[simp] theorem State.raiseFatal_dt (e : FatalError) : (s.raiseFatal e).dt = s.dt := rfl
@[simp] theorem State.raiseFatal_st (e : FatalError) : (s.raiseFatal e).st = s.st := rfl
@[simp] theorem State.raiseFatal_mem (e : FatalError) : (s.raiseFatal e).mem = s.mem := rfl
@[simp] theorem State.raiseFatal_fb (e : FatalError) : (s.raiseFatal e).fb = s.fb := rfl
@[simp] theorem State.raiseFatal_changed (e : FatalError) : (s.raiseFatal e).changed = s.changed := rfl
@[simp] theorem State.raiseFatal_key (e : FatalError) : (s.raiseFatal e).key = s.key := rfl
@[simp] theorem State.raiseFatal_await (e : FatalError) : (s.raiseFatal e).await = s.await := rfl
@[simp] theorem State.raiseFatal_awaitReg (e : FatalError) : (s.raiseFatal e).awaitReg = s.awaitReg := rfl
@[simp] theorem State.raiseFatal_run (e : FatalError) : (s.raiseFatal e).run = .halted := rfl
@[simp] theorem State.raiseFatal_err (e : FatalError) : (s.raiseFatal e).err = some e := rfl
@[simp] theorem State.raiseFatal_draws (e : FatalError) : (s.raiseFatal e).draws = s.draws := rfl
@[simp] theorem State.raiseFatal_getV (e : FatalError) (r : Nibble) : (s.raiseFatal e).getV r = s.getV r := rfl
@[simp] theorem State.raiseFatal_memRead (e : FatalError) (at_ : Nat) : (s.raiseFatal e).memRead at_ = s.memRead at_ := rfl
@[simp] theorem State.raiseFatal_getKey (e : FatalError) (j : Nibble) : (s.raiseFatal e).getKey j = s.getKey j := rfl

/-! ### `State.countDraw` -/

@[simp] theorem State.countDraw_v : (s.countDraw).v = s.v := rfl
@[simp] theorem State.countDraw_i : (s.countDraw).i = s.i := rfl
@[simp] theorem State.countDraw_pc : (s.countDraw).pc = s.pc := rfl
@[simp] theorem State.countDraw_sp : (s.countDraw).sp = s.sp := rfl
@[simp] theorem State.countDraw_stack : (s.countDraw).stack = s.stack := rfl
@[simp] theorem State.countDraw_dt : (s.countDraw).dt = s.dt := rfl
@[simp] theorem State.countDraw_st : (s.countDraw).st = s.st := rfl
@[simp] theorem State.countDraw_mem : (s.countDraw).mem = s.mem := rfl
@[simp] theorem State.countDraw_fb : (s.countDraw).fb = s.fb := rfl
@[simp] theorem State.countDraw_changed : (s.countDraw).changed = s.changed := rfl
@[simp] theorem State.countDraw_key : (s.countDraw).key = s.key := rfl
@[simp] theorem State.countDraw_await : (s.countDraw).await = s.await := rfl
@[simp] theorem State.countDraw_awaitReg : (s.countDraw).awaitReg = s.awaitReg := rfl
@[simp] theorem State.countDraw_run : (s.countDraw).run = s.run := rfl
@[simp] theorem State.countDraw_err : (s.countDraw).err = s.err := rfl
@[simp] theorem State.countDraw_draws : (s.countDraw).draws = s.draws + 1 := rfl
@[simp] theorem State.countDraw_getV (r : Nibble) : (s.countDraw).getV r = s.getV r := rfl
@[simp] theorem State.countDraw_memRead (at_ : Nat) : (s.countDraw).memRead at_ = s.memRead at_ := rfl
@[simp] theorem State.countDraw_getKey (j : Nibble) : (s.countDraw).getKey j = s.getKey j := rfl

/-! ### `State.keyEvent` -/

@[simp] theorem State.keyEvent_v (k : Nibble) (level : Bool) : (s.keyEvent k level).v = s.v := rfl
@[simp] theorem State.keyEvent_i (k : Nibble) (level : Bool) : (s.keyEvent k level).i = s.i := rfl
@[simp] theorem State.keyEvent_pc (k : Nibble) (level : Bool) : (s.keyEvent k level).pc = s.pc := rfl
@[simp] theorem State.keyEvent_sp (k : Nibble) (level : Bool) : (s.keyEvent k level).sp = s.sp := rfl
@[simp] theorem State.keyEvent_stack (k : Nibble) (level : Bool) : (s.keyEvent k level).stack = s.stack := rfl
@[simp] theorem State.keyEvent_dt (k : Nibble) (level : Bool) : (s.keyEvent k level).dt = s.dt := rfl
@[simp] theorem State.keyEvent_st (k : Nibble) (level : Bool) : (s.keyEvent k level).st = s.st := rfl
@[simp] theorem State.keyEvent_mem (k : Nibble) (level : Bool) : (s.keyEvent k level).mem = s.mem := rfl
@[simp] theorem State.keyEvent_fb (k : Nibble) (level : Bool) : (s.keyEvent k level).fb = s.fb := rfl
@[simp] theorem State.keyEvent_changed (k : Nibble) (level : Bool) : (s.keyEvent k level).changed = s.changed := rfl
@[simp] theorem State.keyEvent_key (k : Nibble) (level : Bool) : (s.keyEvent k level).key = s.key.set k.toNat level k.isLt := rfl
@[simp] theorem State.keyEvent_await (k : Nibble) (level : Bool) : (s.keyEvent k level).await = s.await := rfl
@[simp] theorem State.keyEvent_awaitReg (k : Nibble) (level : Bool) : (s.keyEvent k level).awaitReg = s.awaitReg := rfl
@[simp] theorem State.keyEvent_run (k : Nibble) (level : Bool) : (s.keyEvent k level).run = s.run := rfl
@[simp] theorem State.keyEvent_err (k : Nibble) (level : Bool) : (s.keyEvent k level).err = s.err := rfl
@[simp] theorem State.keyEvent_draws (k : Nibble) (level : Bool) : (s.keyEvent k level).draws = s.draws := rfl
@[simp] theorem State.keyEvent_getV (k : Nibble) (level : Bool) (r : Nibble) : (s.keyEvent k level).getV r = s.getV r := rfl
@[simp] theorem State.keyEvent_memRead (k : Nibble) (level : Bool) (at_ : Nat) : (s.keyEvent k level).memRead at_ = s.memRead at_ := rfl

/-! ### `State.clearChanged` -/

@[simp] theorem State.clearChanged_v : (s.clearChanged).v = s.v := rfl
@[simp] theorem State.clearChanged_i : (s.clearChanged).i = s.i := rfl
@[simp] theorem State.clearChanged_pc : (s.clearChanged).pc = s.pc := rfl
@[simp] theorem State.clearChanged_sp : (s.clearChanged).sp = s.sp := rfl
@[simp] theorem State.clearChanged_stack : (s.clearChanged).stack = s.stack := rfl
@[simp] theorem State.clearChanged_dt : (s.clearChanged).dt = s.dt := rfl
@[simp] theorem State.clearChanged_st : (s.clearChanged).st = s.st := rfl
@[simp] theorem State.clearChanged_mem : (s.clearChanged).mem = s.mem := rfl
@[simp] theorem State.clearChanged_fb : (s.clearChanged).fb = s.fb := rfl
@[simp] theorem State.clearChanged_changed : (s.clearChanged).changed = false := rfl
@[simp] theorem State.clearChanged_key : (s.clearChanged).key = s.key := rfl
@[simp] theorem State.clearChanged_await : (s.clearChanged).await = s.await := rfl
@[simp] theorem State.clearChanged_awaitReg : (s.clearChanged).awaitReg = s.awaitReg := rfl
@[simp] theorem State.clearChanged_run : (s.clearChanged).run = s.run := rfl
@[simp] theorem State.clearChanged_err : (s.clearChanged).err = s.err := rfl
@[simp] theorem State.clearChanged_draws : (s.clearChanged).draws = s.draws := rfl
@[simp] theorem State.clearChanged_getV (r : Nibble) : (s.clearChanged).getV r = s.getV r := rfl
@[simp] theorem State.clearChanged_memRead (at_ : Nat) : (s.clearChanged).memRead at_ = s.memRead at_ := rfl
@[simp] theorem State.clearChanged_getKey (j : Nibble) : (s.clearChanged).getKey j = s.getKey j := rfl

/-! ### Composed operations -/

@[simp] theorem State.setFlag_eq (f : Byte) : s.setFlag f = s.setV 0xF#4 f := rfl

@[simp] theorem State.advance_eq : s.advance = s.setPc (s.pc + 2) := rfl

@[simp] theorem State.decodeError_eq : s.decodeError = s.setPc (s.pc + 2) := rfl

@[simp] theorem State.skipIf_eq (c : Bool) : s.skipIf c = s.setPc (if c then s.pc + 4 else s.pc + 2) := by
  cases c <;> rfl

@[simp] theorem State.tick_eq : s.tick = (s.setDt (decay s.dt)).setSt (decay s.st) := rfl

@[simp] theorem State.resolveWait_eq (k : Nibble) :
    s.resolveWait k = ((s.setV s.awaitReg (k.setWidth 8)).endWait).setPc (s.pc + 2) := rfl

@[simp] theorem State.rngByte_eq : s.rngByte = Config.rng s.draws := rfl

end Sys2Proof.Machine
end

