-- ==== Sys2Proof/Laws/Memory.lean ====
section
/-! SUPPORT. What the memory operations do: a read after a write, the canonical form kept, the range check, and
consecutive stores and loads. -/

namespace Sys2Proof.Machine

/-! ### One byte -/

/-- The reset contents inside the font, for every font. -/
theorem Memory.resetByte_font (font : FontData) {d : Nat} (h : d < Config.fontSize) :
    Memory.resetByte font (Config.fontBase + d) = font.bytes[d] := by
  unfold Memory.resetByte
  rw [dif_pos ⟨Nat.le_add_right _ _, Nat.add_lt_add_left h _⟩]
  simp only [Nat.add_sub_cancel_left]

/-- The reset contents outside the font. -/
theorem Memory.resetByte_outside (font : FontData) {a : Nat} (h : a < 0x050 ∨ 0x0A0 ≤ a) :
    Memory.resetByte font a = 0 := by
  simp only [Memory.resetByte, Config.fontBase, Config.fontSize]
  exact dif_neg (by omega)

/-- Row `r` of glyph `d` lies at FONT_BASE + 5*d + r (10_state.md R31). -/
theorem Memory.resetByte_glyph (font : FontData) (d : Fin 16) (r : Fin 5) :
    Memory.resetByte font (Config.fontBase + (5 * d.val + r.val)) = font.glyphRow d r :=
  Memory.resetByte_font font (by have := d.isLt; have := r.isLt; simp only [Config.fontSize]; omega)

theorem Memory.read_insert (m : Memory) (a : Nat) (b : Byte) (k : Nat) :
    (Memory.insert m a b).read k = if k = a then b else m.read k := by
  induction m with
  | nil => simp only [Memory.insert, Memory.read, eq_comm]
  | cons c rest ih =>
    obtain ⟨j, c⟩ := c
    simp only [Memory.insert]
    split_ifs <;> simp only [Memory.read, ih] <;> split_ifs <;> first | rfl | omega

theorem Memory.read_erase_ne (m : Memory) {a k : Nat} (h : k ≠ a) : (Memory.erase m a).read k = m.read k := by
  induction m with
  | nil => rfl
  | cons c rest ih =>
    obtain ⟨j, c⟩ := c
    simp only [Memory.erase]
    split_ifs with hj
    · simp only [Memory.read, hj, if_neg (Ne.symm h)]
    · simp only [Memory.read, ih]

/-- An address below every listed one reads as unlisted. -/
theorem Memory.read_of_lt (m : Memory) {a : Nat} (h : ∀ c ∈ m, a < c.1) : m.read a = Memory.unlisted a := by
  induction m with
  | nil => rfl
  | cons c rest ih =>
    obtain ⟨j, c⟩ := c
    have hj : a < j := h (j, c) (by simp)
    simp only [Memory.read, if_neg (Nat.ne_of_gt hj)]
    exact ih fun d hd => h d (by simp [hd])

theorem Memory.read_erase_self (m : Memory) (hm : m.wf) (a : Nat) :
    (Memory.erase m a).read a = Memory.unlisted a := by
  induction m with
  | nil => rfl
  | cons c rest ih =>
    obtain ⟨j, c⟩ := c
    obtain ⟨hp, hb⟩ := hm
    rw [List.pairwise_cons] at hp
    simp only [Memory.erase]
    split_ifs with hj
    · exact Memory.read_of_lt rest fun d hd => hj ▸ hp.1 d hd
    · simp only [Memory.read, if_neg hj]
      exact ih ⟨hp.2, fun d hd => hb d (by simp [hd])⟩

/-- A read after a write, at every address (20_memory.md R36, R43). -/
theorem Memory.read_write (m : Memory) (hm : m.wf) (a : Nat) (b : Byte) (k : Nat) :
    (Memory.write m a b).read k = if k = a then b else m.read k := by
  unfold Memory.write
  split_ifs with hb hk hk
  · rw [hk, Memory.read_erase_self m hm, hb]
  · exact Memory.read_erase_ne m hk
  · rw [Memory.read_insert, if_pos hk]
  · rw [Memory.read_insert, if_neg hk]

/-- A write leaves every other address alone, in every memory. -/
theorem Memory.read_write_ne (m : Memory) (a : Nat) (b : Byte) {k : Nat} (h : k ≠ a) :
    (Memory.write m a b).read k = m.read k := by
  unfold Memory.write
  split_ifs
  · exact Memory.read_erase_ne m h
  · rw [Memory.read_insert, if_neg h]

/-! ### The canonical form -/

theorem Memory.mem_erase {m : Memory} {a : Nat} {c : Host.Cell} (h : c ∈ Memory.erase m a) : c ∈ m := by
  induction m with
  | nil => exact h
  | cons d rest ih =>
    obtain ⟨j, d⟩ := d
    simp only [Memory.erase] at h
    split_ifs at h with hj
    · exact List.mem_cons_of_mem _ h
    · rcases List.mem_cons.1 h with h | h
      · exact h ▸ List.mem_cons_self
      · exact List.mem_cons_of_mem _ (ih h)

theorem Memory.mem_insert {m : Memory} {a : Nat} {b : Byte} {c : Host.Cell} (h : c ∈ Memory.insert m a b) :
    c = (a, b) ∨ c ∈ m := by
  induction m with
  | nil => exact Or.inl (by simpa [Memory.insert] using h)
  | cons d rest ih =>
    obtain ⟨j, d⟩ := d
    simp only [Memory.insert] at h
    split_ifs at h with h1 h2
    · exact List.mem_cons.1 h
    · rcases List.mem_cons.1 h with h | h
      · exact Or.inl h
      · exact Or.inr (List.mem_cons_of_mem _ h)
    · rcases List.mem_cons.1 h with h | h
      · exact Or.inr (h ▸ List.mem_cons_self)
      · exact (ih h).imp_right (List.mem_cons_of_mem _)

theorem Memory.wf_erase {m : Memory} (hm : m.wf) (a : Nat) : (Memory.erase m a).wf := by
  induction m with
  | nil => exact hm
  | cons d rest ih =>
    obtain ⟨j, d⟩ := d
    obtain ⟨hp, hb⟩ := hm
    rw [List.pairwise_cons] at hp
    have hrest : Memory.wf rest := ⟨hp.2, fun c hc => hb c (by simp [hc])⟩
    simp only [Memory.erase]
    split_ifs with hj
    · exact hrest
    · refine ⟨List.pairwise_cons.2 ⟨fun c hc => hp.1 c (Memory.mem_erase hc), (ih hrest).1⟩, ?_⟩
      intro c hc
      rcases List.mem_cons.1 hc with hc | hc
      · exact hb c (by simp [hc])
      · exact (ih hrest).2 c hc

theorem Memory.wf_insert {m : Memory} (hm : m.wf) {a : Nat} {b : Byte} (ha : a < 4096)
    (hb : b ≠ Memory.unlisted a) : (Memory.insert m a b).wf := by
  refine ⟨?_, fun c hc => ?_⟩
  · induction m with
    | nil => simp [Memory.insert]
    | cons d rest ih =>
      obtain ⟨j, d⟩ := d
      obtain ⟨hp, hw⟩ := hm
      have hp' := List.pairwise_cons.1 hp
      simp only [Memory.insert]
      split_ifs with h1 h2
      · refine List.pairwise_cons.2 ⟨fun c hc => ?_, hp⟩
        rcases List.mem_cons.1 hc with hc | hc
        · subst hc; exact h1
        · exact Nat.lt_trans h1 (hp'.1 c hc)
      · subst h2; exact List.pairwise_cons.2 ⟨hp'.1, hp'.2⟩
      · refine List.pairwise_cons.2 ⟨fun c hc => ?_, ih ⟨hp'.2, fun c hc => hw c (by simp [hc])⟩⟩
        rcases Memory.mem_insert hc with hc | hc
        · subst hc; simp only; omega
        · exact hp'.1 c hc
  · rcases Memory.mem_insert hc with hc | hc
    · subst hc; exact ⟨ha, hb⟩
    · exact hm.2 c hc

/-- A write inside the 4096 bytes keeps the canonical form. -/
theorem Memory.wf_write {m : Memory} (hm : m.wf) {a : Nat} (ha : a < 4096) (b : Byte) :
    (Memory.write m a b).wf := by
  unfold Memory.write
  split_ifs with hb
  · exact Memory.wf_erase hm a
  · exact Memory.wf_insert hm ha hb

theorem State.reset_memCanonical : State.reset.MemCanonical := by decide

/-- Canonical memories that read alike are equal data. -/
theorem Memory.eq_of_read {m n : Memory} (hm : m.wf) (hn : n.wf) (h : ∀ a, m.read a = n.read a) : m = n := by
  induction m generalizing n with
  | nil =>
    cases n with
    | nil => rfl
    | cons d rest =>
      have hd := h d.1
      simp only [Memory.read, if_true] at hd
      exact absurd hd.symm (hn.2 d (by simp)).2
  | cons c rest ih =>
    obtain ⟨hmp, hmb⟩ := hm
    have hmp' := List.pairwise_cons.1 hmp
    cases n with
    | nil =>
      have hc := h c.1
      simp only [Memory.read, if_true] at hc
      exact absurd hc (hmb c (by simp)).2
    | cons d rest' =>
      obtain ⟨hnp, hnb⟩ := hn
      have hnp' := List.pairwise_cons.1 hnp
      have hlow : ∀ (e : Host.Cell) (r : Memory), (∀ x ∈ r, e.1 < x.1) → ∀ {k}, k < e.1 →
          Memory.read (e :: r) k = Memory.unlisted k := fun e r hr k hk =>
        Memory.read_of_lt _ fun x hx => by
          rcases List.mem_cons.1 hx with hx | hx
          · exact hx ▸ hk
          · exact Nat.lt_trans hk (hr x hx)
      rcases Nat.lt_trichotomy c.1 d.1 with hlt | heq | hgt
      · have hc := h c.1
        rw [hlow d rest' hnp'.1 hlt] at hc
        simp only [Memory.read, if_true] at hc
        exact absurd hc (hmb c (by simp)).2
      · have hcd : c = d := by
          have hc := h c.1
          obtain ⟨cj, cb⟩ := c
          obtain ⟨dj, db⟩ := d
          simp only at heq
          subst heq
          simpa only [Memory.read, if_true, Prod.mk.injEq, true_and] using hc
        subst hcd
        rw [ih ⟨hmp'.2, fun x hx => hmb x (by simp [hx])⟩ ⟨hnp'.2, fun x hx => hnb x (by simp [hx])⟩]
        intro a
        by_cases ha : a = c.1
        · subst ha; rw [Memory.read_of_lt rest hmp'.1, Memory.read_of_lt rest' hnp'.1]
        · have := h a
          simpa only [Memory.read, if_neg (Ne.symm ha)] using this
      · have hd := h d.1
        rw [hlow c rest hmp'.1 hgt] at hd
        simp only [Memory.read, if_true] at hd
        exact absurd hd.symm (hnb d (by simp)).2

/-! ### The state's memory -/

theorem State.memRead_memWrite (s : State) (hs : s.MemCanonical) (a : Nat) (b : Byte) (k : Nat) :
    (s.memWrite a b).memRead k = if k = a then b else s.memRead k := Memory.read_write s.mem hs a b k

theorem State.memRead_memWrite_ne (s : State) (a : Nat) (b : Byte) {k : Nat} (h : k ≠ a) :
    (s.memWrite a b).memRead k = s.memRead k := Memory.read_write_ne s.mem a b h

/-- `CheckRange`: no error exactly when the last address is at most 0xFFF, else the lowest address past it (R37). -/
theorem checkRange_eq_none (a n : Nat) : checkRange a n = none ↔ a + n - 1 ≤ 0xFFF := by
  unfold checkRange; split_ifs with h <;> simp <;> omega

theorem checkRange_eq_some {a n : Nat} {e : FatalError} (h : checkRange a n = some e) :
    a + n - 1 > 0xFFF ∧ e = .memOutOfRange (max a 0x1000) := by
  unfold checkRange at h
  split_ifs at h with h'
  · exact ⟨h', (Option.some.inj h).symm⟩

/-- Everything an access can do: the precise error, or the completed state. -/
theorem accessing_cases (a n : Nat) (s done : State) :
    (a + n - 1 ≤ 0xFFF ∧ accessing a n s done = .next done) ∨
      (a + n - 1 > 0xFFF ∧ accessing a n s done = .next (s.raiseFatal (.memOutOfRange (max a 0x1000)))) := by
  unfold accessing checkRange
  by_cases h : a + n - 1 > 0xFFF
  · exact Or.inr ⟨h, by simp [h]⟩
  · exact Or.inl ⟨by omega, by simp [h]⟩

/-! ### Consecutive stores and loads -/

/-- Stores touch the memory and nothing else. -/
theorem State.storeBytes_eq (bytes : List Byte) (a : Nat) (s : State) :
    ∃ m : Memory, s.storeBytes bytes a = { s with mem := m } := by
  induction bytes generalizing a s with
  | nil => exact ⟨s.mem, rfl⟩
  | cons b rest ih => obtain ⟨m, h⟩ := ih (a + 1) (s.memWrite a b); exact ⟨m, h⟩

@[simp] theorem State.storeBytes_pc (bytes : List Byte) (a : Nat) (s : State) : (s.storeBytes bytes a).pc = s.pc := by
  obtain ⟨m, h⟩ := State.storeBytes_eq bytes a s
  rw [h]

/-- What memory reads as after consecutive stores. -/
theorem State.memRead_storeBytes (bytes : List Byte) (a : Nat) (s : State) (hs : s.MemCanonical)
    (ha : a + bytes.length ≤ 4096) (k : Nat) :
    (s.storeBytes bytes a).memRead k =
      if a ≤ k ∧ k < a + bytes.length then bytes.getD (k - a) 0 else s.memRead k := by
  induction bytes generalizing a s with
  | nil => simp only [State.storeBytes, List.length_nil]; rw [if_neg (by omega)]
  | cons b rest ih =>
    simp only [List.length_cons] at ha
    have hw : (s.memWrite a b).MemCanonical := Memory.wf_write hs (by omega) b
    rw [State.storeBytes, ih (a + 1) (s.memWrite a b) hw (by omega), List.length_cons]
    by_cases hk : k = a
    · subst hk
      rw [if_neg (by omega), if_pos (by omega), State.memRead_memWrite s hs, if_pos rfl]; simp
    · by_cases hin : a + 1 ≤ k ∧ k < a + 1 + rest.length
      · rw [if_pos hin, if_pos (by omega), show k - a = (k - (a + 1)) + 1 by omega]; simp
      · rw [if_neg hin, if_neg (by omega), State.memRead_memWrite_ne s a b hk]

/-- Outside the stored bytes memory reads as before, in every state. -/
theorem State.memRead_storeBytes_out (bytes : List Byte) (a : Nat) (s : State) {k : Nat}
    (hk : ¬(a ≤ k ∧ k < a + bytes.length)) : (s.storeBytes bytes a).memRead k = s.memRead k := by
  induction bytes generalizing a s with
  | nil => rfl
  | cons b rest ih =>
    simp only [List.length_cons] at hk
    rw [State.storeBytes, ih (a + 1) (s.memWrite a b) (by omega), State.memRead_memWrite_ne s a b (by omega)]

theorem State.storeBytes_memCanonical (bytes : List Byte) (a : Nat) (s : State) (hs : s.MemCanonical)
    (ha : a + bytes.length ≤ 4096) : (s.storeBytes bytes a).MemCanonical := by
  induction bytes generalizing a s with
  | nil => exact hs
  | cons b rest ih =>
    simp only [List.length_cons] at ha
    exact ih (a + 1) (s.memWrite a b) (Memory.wf_write hs (by omega) b) (by omega)

@[simp] theorem bcdDigits_length (v : Byte) : (bcdDigits v).length = 3 := rfl

@[simp] theorem dumpBytes_length (x : Nibble) (s : State) : (dumpBytes x s).length = x.toNat + 1 := by
  simp [dumpBytes]

/-- Byte k of a dump is V[k]. -/
theorem dumpBytes_getD (x : Nibble) (s : State) (k : Nibble) (h : k.toNat ≤ x.toNat) :
    (dumpBytes x s).getD k.toNat 0 = s.getV k := by
  simp [dumpBytes, List.getD, Nat.lt_succ_of_le h]

end Sys2Proof.Machine
end

