-- ==== Sys2Proof/Laws/Registers.lean ====
section
/-! SUPPORT. What the register, stack and keypad operations do, one lemma per operation. -/

namespace Sys2Proof.Machine

/-- A register read after a register write. -/
@[simp] theorem State.getV_setV (s : State) (x r : Nibble) (b : Byte) :
    (s.setV x b).getV r = if r = x then b else s.getV r := by
  simp only [State.setV, State.getV, Vector.getElem_set, ← BitVec.toNat_eq, eq_comm]

/-- Registers that read alike are equal data. -/
theorem State.v_ext {s t : State} (h : ∀ r : Nibble, t.getV r = s.getV r) : t.v = s.v := by
  refine Vector.ext fun k hk => ?_
  have := h (BitVec.ofNat 4 k)
  simpa only [State.getV, BitVec.toNat_ofNat, Nat.mod_eq_of_lt (show k < 2 ^ 4 from hk)] using this

/-- A key's level after a key event (60_exceptions.md R110). -/
@[simp] theorem State.getKey_keyEvent (s : State) (k j : Nibble) (level : Bool) :
    (s.keyEvent k level).getKey j = if j = k then level else s.getKey j := by
  simp only [State.keyEvent, State.getKey, Vector.getElem_set, ← BitVec.toNat_eq, eq_comm]

/-- Loads touch the general registers and nothing else. -/
theorem State.loadRegs_eq (a n : Nat) (s : State) : ∃ v : Vector Byte 16, s.loadRegs a n = { s with v := v } := by
  induction n with
  | zero => exact ⟨s.v, rfl⟩
  | succ k ih =>
    obtain ⟨v, h⟩ := ih
    exact ⟨v.set (BitVec.ofNat 4 k).toNat (s.memRead (a + k)) (BitVec.ofNat 4 k).isLt, by
      rw [State.loadRegs, h]; rfl⟩

/-- Register r after the first n registers were loaded. -/
theorem State.getV_loadRegs (a n : Nat) (hn : n ≤ 16) (s : State) (r : Nibble) :
    (s.loadRegs a n).getV r = if r.toNat < n then s.memRead (a + r.toNat) else s.getV r := by
  induction n with
  | zero => simp [State.loadRegs]
  | succ k ih =>
    have hk : (BitVec.ofNat 4 k).toNat = k := by
      rw [BitVec.toNat_ofNat]; exact Nat.mod_eq_of_lt (by omega)
    rw [State.loadRegs, State.getV_setV, ih (by omega)]
    by_cases hr : r = BitVec.ofNat 4 k
    · have : r.toNat = k := by rw [hr, hk]
      rw [if_pos hr, if_pos (by omega), this]
    · have hne : r.toNat ≠ k := fun h => hr (BitVec.eq_of_toNat_eq (by rw [h, hk]))
      rw [if_neg hr]
      by_cases hlt : r.toNat < k
      · rw [if_pos hlt, if_pos (by omega)]
      · rw [if_neg hlt, if_neg (by omega)]

/-- Everything CALL's push can do (40_flow.md R62). -/
theorem State.push_cases (w : Word) (s : State) :
    (s.sp.val = Config.stackDepth ∧ s.push w = .error .stackOverflow) ∨
      ∃ h : s.sp.val < Config.stackDepth,
        s.push w = .ok { s with stack := s.stack.set s.sp.val w h, sp := ⟨s.sp.val + 1, Nat.succ_lt_succ h⟩ } := by
  by_cases h : s.sp.val < Config.stackDepth
  · exact Or.inr ⟨h, by unfold State.push; rw [dif_pos h]⟩
  · have := s.sp.isLt
    exact Or.inl ⟨by omega, by unfold State.push; rw [dif_neg h]⟩

/-- Everything RET's pop can do (40_flow.md R60). -/
theorem State.pop_cases (s : State) :
    (s.sp.val = 0 ∧ s.pop = .error .stackUnderflow) ∨
      ∃ (_ : s.sp.val ≠ 0) (h : s.sp.val - 1 < Config.stackDepth),
        s.pop = .ok (s.stack[s.sp.val - 1], { s with sp := ⟨s.sp.val - 1, Nat.lt_succ_of_lt h⟩ }) := by
  by_cases h : s.sp.val = 0
  · exact Or.inl ⟨h, by unfold State.pop; rw [dif_pos h]⟩
  · have := s.sp.isLt
    exact Or.inr ⟨h, by omega, by unfold State.pop; rw [dif_neg h]⟩

/-- Everything `KeyAt` can do (44_timers_keys.md R91). -/
theorem keyAt_cases (v : Byte) (s : State) :
    (v.toNat > 0x0F ∧ keyAt v s = .error (.keyIndexOutOfRange v)) ∨
      (v.toNat ≤ 0x0F ∧ keyAt v s = .ok (s.getKey (v.setWidth 4))) := by
  by_cases h : v.toNat > 0x0F
  · exact Or.inl ⟨h, by unfold keyAt; rw [if_pos h]⟩
  · exact Or.inr ⟨by omega, by unfold keyAt; rw [if_neg h]⟩

/-- The least held key: held, and no lower key is. -/
theorem State.leastKey_eq_some (s : State) (k : Nibble) :
    s.leastKey = some k ↔ s.getKey k = true ∧ ∀ j : Nibble, j.toNat < k.toNat → s.getKey j = false := by
  have hget : ∀ (n : Nat) (hn : n < 16),
      ((List.range 16).map (BitVec.ofNat 4))[n]'(by simpa using hn) = BitVec.ofNat 4 n := by
    intro n hn; simp
  unfold State.leastKey
  rw [List.find?_eq_some_iff_getElem]
  constructor
  · rintro ⟨hk, n, hn, hnk, hlow⟩
    have hn16 : n < 16 := by simpa using hn
    rw [hget n hn16] at hnk
    have hkn : k.toNat = n := by
      rw [← hnk, BitVec.toNat_ofNat]; exact Nat.mod_eq_of_lt (by omega)
    refine ⟨hk, fun j hj => ?_⟩
    have hjl := hlow j.toNat (by omega)
    rw [hget j.toNat j.isLt] at hjl
    simpa using hjl
  · rintro ⟨hk, hlow⟩
    refine ⟨hk, k.toNat, by simpa using k.isLt, ?_, fun j hj => ?_⟩
    · rw [hget k.toNat k.isLt]; simp
    · have hj16 : j < 16 := by have := k.isLt; omega
      rw [hget j hj16]
      have := hlow (BitVec.ofNat 4 j) (by
        rw [BitVec.toNat_ofNat, Nat.mod_eq_of_lt (by omega)]; exact hj)
      simp [this]

theorem State.leastKey_eq_none (s : State) : s.leastKey = none ↔ ∀ k : Nibble, s.getKey k = false := by
  unfold State.leastKey
  rw [List.find?_eq_none]
  constructor
  · intro h k
    have := h k (List.mem_map.2 ⟨k.toNat, by simpa using k.isLt, by simp⟩)
    simpa using this
  · intro h k _
    simp [h k]

end Sys2Proof.Machine
end

