-- ==== Sys2Proof/Laws/Cycle.lean ====
section
/-! SUPPORT. What a Step can do before and beside `exec`: the fetch, and the choice `State.nextAction` makes. -/

namespace Sys2Proof.Machine

/-- Everything the fetch can do (30_encoding.md R57). -/
theorem State.fetch_cases (s : State) :
    (s.pc.toNat + 1 ≤ 0xFFF ∧
        s.fetch = .ok (wordOfBytes (s.memRead s.pc.toNat) (s.memRead (s.pc.toNat + 1)))) ∨
      (s.pc.toNat + 1 > 0xFFF ∧ s.fetch = .error (.memOutOfRange (max s.pc.toNat 0x1000))) := by
  unfold State.fetch
  cases h : checkRange s.pc.toNat 2 with
  | none => exact Or.inl ⟨by have := (checkRange_eq_none _ _).1 h; omega, rfl⟩
  | some e => obtain ⟨h1, h2⟩ := checkRange_eq_some h; exact Or.inr ⟨by omega, by rw [h2]⟩

/-- A fetched word means the PC was in range. -/
theorem State.pc_of_fetch {s : State} {w : Word} (h : s.fetch = .ok w) : s.pc.toNat + 1 ≤ 0xFFF := by
  rcases s.fetch_cases with ⟨hpc, -⟩ | ⟨-, he⟩
  · exact hpc
  · rw [he] at h; exact nomatch h

/-- A step executes `i` exactly in RUNNING, not awaiting, with a fetched word that decodes to `i`. -/
theorem State.nextAction_execute {s : State} {i : Instr} {w : Word} :
    s.nextAction = .execute i w ↔ s.Ready ∧ s.fetch = .ok w ∧ decodeWord w = .ok i := by
  unfold State.nextAction State.Ready
  cases hr : s.run with
  | halted => simp
  | running =>
    cases ha : s.await with
    | true => cases hk : s.leastKey <;> simp
    | false =>
      cases hf : s.fetch with
      | error e => simp
      | ok w' =>
        cases hd : decodeWord w' with
        | error r => simp [hd]; rintro rfl; simp [hd]
        | ok j =>
          simp [hd]
          constructor
          · rintro ⟨rfl, rfl⟩; exact ⟨rfl, hd⟩
          · rintro ⟨rfl, h⟩; rw [hd] at h; exact ⟨Except.ok.inj h, rfl⟩

end Sys2Proof.Machine
end

