-- ==== Sys2Proof/Laws/Display.lean ====
section
/-! SUPPORT. What the framebuffer operations do, cell by cell of the flat bitmap of 10_state.md R23. -/

namespace Sys2Proof.Machine

/-- A toggle flips its own cell and no other (43_display.md R90). -/
theorem Framebuffer.cell_toggle (fb : Framebuffer) (idx k : Nat) (h : idx < 2048) :
    Framebuffer.cell (fb.toggle idx) k = xor (Framebuffer.cell fb k) (decide (k = idx)) := by
  have hrow : idx / Config.fbWidth < Config.fbHeight := Nat.div_lt_of_lt_mul h
  have hcol : idx % Config.fbWidth < Config.fbWidth := Nat.mod_lt _ (by decide)
  have hkcol : k % Config.fbWidth < Config.fbWidth := Nat.mod_lt _ (by decide)
  have hdiv := Nat.div_add_mod k Config.fbWidth
  have hdiv' := Nat.div_add_mod idx Config.fbWidth
  unfold Framebuffer.cell Framebuffer.toggle
  by_cases hr : idx / Config.fbWidth = k / Config.fbWidth
  · have hkrow : k / Config.fbWidth < Config.fbHeight := hr ▸ hrow
    rw [hr, Vector.getElem?_setIfInBounds_self_of_lt hkrow, Option.getD_some, BitVec.getLsbD_xor,
      BitVec.getLsbD_twoPow]
    congr 1
    by_cases hc : idx % Config.fbWidth = k % Config.fbWidth
    · have : k = idx := by rw [← hdiv, ← hdiv', hr, hc]
      simp [hc, this, hkcol]
    · have : k ≠ idx := fun he => hc (by rw [he])
      simp [hc, this]
  · rw [Vector.getElem?_setIfInBounds_ne hr]
    have : k ≠ idx := fun he => hr (by rw [he])
    simp [this]

theorem Framebuffer.cell_clear (idx : Nat) : Framebuffer.cell Framebuffer.clear idx = false := by
  unfold Framebuffer.cell Framebuffer.clear
  by_cases h : idx / Config.fbWidth < Config.fbHeight
  · simp [h]
  · simp [h]

/-- Framebuffers whose cells read alike are equal data. -/
theorem Framebuffer.eq_of_cell {f g : Framebuffer} (h : ∀ idx, f.cell idx = Framebuffer.cell g idx) : f = g := by
  refine Vector.ext fun r hr => BitVec.eq_of_getLsbD_eq fun c hc => ?_
  have := h (c + Config.fbWidth * r)
  unfold Framebuffer.cell at this
  rw [Nat.add_mul_div_left _ _ (show 0 < Config.fbWidth by decide), Nat.div_eq_of_lt hc, Nat.zero_add,
    Nat.add_mul_mod_self_left, Nat.mod_eq_of_lt hc, Vector.getElem?_eq_getElem hr, Vector.getElem?_eq_getElem hr]
    at this
  exact this

/-- A sprite pixel's cell lies inside the framebuffer (43_display.md R89). -/
theorem pixelIndex_lt (x0 y0 : Byte) (col row : Nat) :
    pixelIndex x0 y0 col row < 2048 := by
  have h1 := Nat.mod_lt (x0.toNat + col) (show 0 < Config.fbWidth by decide)
  have h2 := Nat.mod_lt (y0.toNat + row) (show 0 < Config.fbHeight by decide)
  unfold pixelIndex
  simp only [Config.fbWidth, Config.fbHeight] at *
  omega

/-- A sprite never overlaps itself: at most 8 columns and 15 rows (43_display.md R89). -/
theorem pixelIndex_inj (x0 y0 : Byte) {c c' r r' : Nat} (hc : c < 8) (hc' : c' < 8) (hr : r < 15) (hr' : r' < 15)
    (h : pixelIndex x0 y0 c r = pixelIndex x0 y0 c' r') : c = c' ∧ r = r' := by
  unfold pixelIndex at h
  simp only [Config.fbWidth, Config.fbHeight] at h
  constructor <;> omega

/-- One sprite bit on a canvas. -/
theorem Canvas.plot_cell (c : Canvas) (idx k : Nat) (h : idx < 2048) :
    Framebuffer.cell (c.plot idx).fb k = xor (Framebuffer.cell c.fb k) (decide (k = idx)) :=
  Framebuffer.cell_toggle c.fb idx k h

/-- The first `n` columns of a row flip exactly the cells under its set bits (43_display.md R90, inner loop). -/
theorem Canvas.drawRow_cell (b x0 y0 : Byte) {row n : Nat} (hrow : row < 15) (hn : n ≤ 8) (c : Canvas) (k : Nat) :
    Framebuffer.cell (c.drawRow b x0 y0 row n).fb k = true ↔
      ¬(Framebuffer.cell c.fb k = true ↔ ∃ col < n, b.getLsbD (7 - col) = true ∧ k = pixelIndex x0 y0 col row) := by
  induction n with
  | zero => simp [Canvas.drawRow]
  | succ m ih =>
    have ih := ih (by omega)
    simp only [Canvas.drawRow]
    by_cases hb : b.getLsbD (7 - m) = true
    · rw [if_pos hb, Canvas.plot_cell _ _ _ (pixelIndex_lt x0 y0 m row)]
      by_cases hk : k = pixelIndex x0 y0 m row
      · have hold : ¬∃ col < m, b.getLsbD (7 - col) = true ∧ k = pixelIndex x0 y0 col row := by
          rintro ⟨col, hcol, -, he⟩
          have := (pixelIndex_inj x0 y0 (by omega) (by omega) hrow hrow (hk ▸ he)).1
          omega
        have hnew : ∃ col < m + 1, b.getLsbD (7 - col) = true ∧ k = pixelIndex x0 y0 col row :=
          ⟨m, by omega, hb, hk⟩
        simp only [hold, iff_false, not_not] at ih
        simp only [hnew, iff_true, decide_eq_true hk, Bool.bne_true, Bool.not_eq_true', ← Bool.not_eq_true, ih]
      · have hiff : (∃ col < m + 1, b.getLsbD (7 - col) = true ∧ k = pixelIndex x0 y0 col row) ↔
            ∃ col < m, b.getLsbD (7 - col) = true ∧ k = pixelIndex x0 y0 col row := by
          constructor
          · rintro ⟨col, hcol, hbit, he⟩
            rcases Nat.lt_or_ge col m with h | h
            · exact ⟨col, h, hbit, he⟩
            · exact absurd (show col = m by omega) fun h => hk (h ▸ he)
          · rintro ⟨col, hcol, h⟩; exact ⟨col, by omega, h⟩
        rw [hiff, decide_eq_false hk, Bool.xor_false]; exact ih
    · rw [if_neg hb]
      have hiff : (∃ col < m + 1, b.getLsbD (7 - col) = true ∧ k = pixelIndex x0 y0 col row) ↔
          ∃ col < m, b.getLsbD (7 - col) = true ∧ k = pixelIndex x0 y0 col row := by
        constructor
        · rintro ⟨col, hcol, hbit, he⟩
          rcases Nat.lt_or_ge col m with h | h
          · exact ⟨col, h, hbit, he⟩
          · exact absurd (show col = m by omega) fun h => hb (h ▸ hbit)
        · rintro ⟨col, hcol, h⟩; exact ⟨col, by omega, h⟩
      rw [hiff]; exact ih

/-- The first `n` columns collide exactly where a set bit meets a cell that was on before the row. -/
theorem Canvas.drawRow_collision (b x0 y0 : Byte) {row n : Nat} (hrow : row < 15) (hn : n ≤ 8) (c : Canvas) :
    (c.drawRow b x0 y0 row n).collision = true ↔ c.collision = true ∨
      ∃ col < n, b.getLsbD (7 - col) = true ∧ Framebuffer.cell c.fb (pixelIndex x0 y0 col row) = true := by
  induction n with
  | zero => simp [Canvas.drawRow]
  | succ m ih =>
    have ih := ih (by omega)
    have hsplit : (∃ col < m + 1, b.getLsbD (7 - col) = true ∧
          Framebuffer.cell c.fb (pixelIndex x0 y0 col row) = true) ↔
        (∃ col < m, b.getLsbD (7 - col) = true ∧ Framebuffer.cell c.fb (pixelIndex x0 y0 col row) = true) ∨
          (b.getLsbD (7 - m) = true ∧ Framebuffer.cell c.fb (pixelIndex x0 y0 m row) = true) := by
      constructor
      · rintro ⟨col, hcol, h⟩
        rcases Nat.lt_or_ge col m with hlt | hge
        · exact Or.inl ⟨col, hlt, h⟩
        · exact Or.inr ((show col = m by omega) ▸ h)
      · rintro (⟨col, hcol, h⟩ | h)
        · exact ⟨col, by omega, h⟩
        · exact ⟨m, by omega, h⟩
    rw [hsplit, ← or_assoc, ← ih]
    simp only [Canvas.drawRow]
    by_cases hb : b.getLsbD (7 - m) = true
    · have hfresh : Framebuffer.cell (c.drawRow b x0 y0 row m).fb (pixelIndex x0 y0 m row) = true ↔
          Framebuffer.cell c.fb (pixelIndex x0 y0 m row) = true := by
        rw [Canvas.drawRow_cell b x0 y0 hrow (by omega)]
        have hold : ¬∃ col < m, b.getLsbD (7 - col) = true ∧
            pixelIndex x0 y0 m row = pixelIndex x0 y0 col row := by
          rintro ⟨col, hcol, -, he⟩
          have := (pixelIndex_inj x0 y0 (by omega) (by omega) hrow hrow he).1
          omega
        simp [hold]
      rw [if_pos hb]
      simp only [Canvas.plot, Bool.or_eq_true, hfresh, hb, true_and]
    · simp [hb]

/-- Flipping where `q` and then where `r` holds, with `q` and `r` apart, flips where either holds. -/
theorem flip_twice_disjoint {p q r : Prop} (h : ¬(q ∧ r)) : ¬(¬(p ↔ q) ↔ r) ↔ ¬(p ↔ q ∨ r) := by
  by_cases hp : p <;> by_cases hq : q <;> by_cases hr : r <;> simp [hp, hq, hr] at h ⊢

/-- The rows flip exactly the covered cells (43_display.md R90, outer loop). -/
theorem State.drawRows_cell (x0 y0 : Byte) {n : Nat} (hn : n ≤ 15) (s : State) (k : Nat) :
    Framebuffer.cell (s.drawRows x0 y0 n).fb k = true ↔ ¬(s.fb.cell k = true ↔ Covered s x0 y0 n k) := by
  induction n with
  | zero => simp [State.drawRows, Covered]
  | succ m ih =>
    have ih := ih (by omega)
    rw [State.drawRows, Canvas.drawRow_cell _ x0 y0 (by omega) (by omega), ih]
    have hsplit : Covered s x0 y0 (m + 1) k ↔ Covered s x0 y0 m k ∨
        ∃ col < 8, (s.memRead (s.i.toNat + m)).getLsbD (7 - col) = true ∧ k = pixelIndex x0 y0 col m := by
      constructor
      · rintro ⟨row, hrow, h⟩
        rcases Nat.lt_or_ge row m with hlt | hge
        · exact Or.inl ⟨row, hlt, h⟩
        · exact Or.inr ((show row = m by omega) ▸ h)
      · rintro (⟨row, hrow, h⟩ | h)
        · exact ⟨row, by omega, h⟩
        · exact ⟨m, by omega, h⟩
    have hdisj : ¬(Covered s x0 y0 m k ∧
        ∃ col < 8, (s.memRead (s.i.toNat + m)).getLsbD (7 - col) = true ∧ k = pixelIndex x0 y0 col m) := by
      rintro ⟨⟨row, hrow, col, hcol, -, he⟩, col', hcol', -, he'⟩
      have := (pixelIndex_inj x0 y0 hcol hcol' (by omega) (by omega) (he ▸ he')).2
      omega
    rw [hsplit]
    exact flip_twice_disjoint hdisj

/-- The rows collide exactly where a covered cell was on before the instruction. -/
theorem State.drawRows_collision (x0 y0 : Byte) {n : Nat} (hn : n ≤ 15) (s : State) :
    (s.drawRows x0 y0 n).collision = true ↔ ∃ idx, Covered s x0 y0 n idx ∧ s.fb.cell idx = true := by
  induction n with
  | zero => simp [State.drawRows, Covered]
  | succ m ih =>
    have ih := ih (by omega)
    have hfresh : ∀ col < 8, (Framebuffer.cell (s.drawRows x0 y0 m).fb (pixelIndex x0 y0 col m) = true ↔
        s.fb.cell (pixelIndex x0 y0 col m) = true) := by
      intro col hcol
      have hold : ¬Covered s x0 y0 m (pixelIndex x0 y0 col m) := by
        rintro ⟨row, hrow, col', hcol', -, he⟩
        have := (pixelIndex_inj x0 y0 hcol hcol' (by omega) (by omega) he).2
        omega
      rw [State.drawRows_cell x0 y0 (by omega)]
      simp [hold]
    rw [State.drawRows, Canvas.drawRow_collision _ x0 y0 (by omega) (by omega), ih]
    constructor
    · rintro (⟨idx, ⟨row, hrow, h⟩, hon⟩ | ⟨col, hcol, hbit, hon⟩)
      · exact ⟨idx, ⟨row, by omega, h⟩, hon⟩
      · exact ⟨pixelIndex x0 y0 col m, ⟨m, by omega, col, hcol, hbit, rfl⟩, (hfresh col hcol).1 hon⟩
    · rintro ⟨idx, ⟨row, hrow, col, hcol, hbit, rfl⟩, hon⟩
      rcases Nat.lt_or_ge row m with hlt | hge
      · exact Or.inl ⟨_, ⟨row, hlt, col, hcol, hbit, rfl⟩, hon⟩
      · have : row = m := by omega
        subst this
        exact Or.inr ⟨col, hcol, hbit, (hfresh col hcol).2 hon⟩

end Sys2Proof.Machine
end

