-- ==== Sys2Proof/Laws/Exec.lean ====
section
/-! SUPPORT. What one executed instruction can do, said once: the inversion of `exec`. An invariant or a whole-machine
rule is a short case analysis over `Effect`. -/

namespace Sys2Proof.Machine

/-- When each fatal error of 60_exceptions.md R98 is raised, and with what recorded value. -/
def RaisedIn (s : State) : FatalError → Prop
  | .stackOverflow => s.sp.val = Config.stackDepth
  | .stackUnderflow => s.sp.val = 0
  | .memOutOfRange a => 0x1000 ≤ a ∧ a ≤ 0xFFFF
  | .keyIndexOutOfRange v => 0x10 ≤ v.toNat

/-- The states an instruction can lead to, by kind of effect. -/
inductive Effect (s : State) : Instr → State → Prop where
  /-- A fatal error, taken precisely. -/
  | fatal {i : Instr} (e : FatalError) : RaisedIn s e → Effect s i (s.raiseFatal e)
  /-- Past the next word, or past the one after it: SYS and the skips. -/
  | pass {i : Instr} (pc : Word) : pc = s.pc + 2 ∨ pc = s.pc + 4 → Effect s i (s.setPc pc)
  /-- JP and JP V0. -/
  | jump {i : Instr} (pc : Word) : pc.toNat ≤ 0x10FE → Effect s i (s.setPc pc)
  /-- An instruction with general-register results; all but RND leave `draws`. -/
  | regs {i : Instr} (v : Vector Byte 16) (d : Nat) : Effect s i { s with v := v, draws := d, pc := s.pc + 2 }
  /-- ANNN, FX1E, FX29. -/
  | index {i : Instr} (w : Word) : ((∃ nnn, i = .ldI nnn) ∨ (∃ x, i = .addI x) ∨ ∃ x, i = .ldF x) →
      Effect s i ((s.setI w).setPc (s.pc + 2))
  /-- FX33 and FX55, in range. -/
  | store {i : Instr} (bytes : List Byte) (a : Nat) : ((∃ x, i = .ldB x) ∨ ∃ x, i = .ldMemVx x) →
      a + bytes.length ≤ 4096 → Effect s i ((s.storeBytes bytes a).setPc (s.pc + 2))
  /-- CLS and DRW. -/
  | paint {i : Instr} (v : Vector Byte 16) (fb : Framebuffer) : (i = .cls ∨ ∃ x y n, i = .drw x y n) →
      Effect s i { s with v := v, fb := fb, changed := true, pc := s.pc + 2 }
  /-- FX15. -/
  | delay {x : Nibble} : Effect s (.ldDtVx x) ((s.setDt (s.getV x)).setPc (s.pc + 2))
  /-- FX18. -/
  | sound {x : Nibble} : Effect s (.ldStVx x) ((s.setSt (s.getV x)).setPc (s.pc + 2))
  /-- FX0A. -/
  | wait {x : Nibble} : Effect s (.ldVxK x) (s.beginWait x)
  /-- CALL below the stack's capacity. -/
  | call {nnn : Addr} (h : s.sp.val < Config.stackDepth) :
      Effect s (.call nnn) ({ s with stack := s.stack.set s.sp.val (s.pc + 2) h, sp := ⟨s.sp.val + 1, Nat.succ_lt_succ h⟩
        : State }.setPc (addrWord nnn))
  /-- RET on a stack that is not empty. -/
  | ret (h : s.sp.val - 1 < Config.stackDepth) : s.sp.val ≠ 0 →
      Effect s .ret ({ s with sp := ⟨s.sp.val - 1, Nat.lt_succ_of_lt h⟩ : State }.setPc s.stack[s.sp.val - 1])

/-- An access's error is one that R98 lists, whichever base register it goes through. -/
theorem Effect.of_accessing {i : Instr} {s t done : State} {n : Nat}
    (h : accessing s.i.toNat n s done = .next t) (hd : s.i.toNat + n - 1 ≤ 0xFFF → Effect s i done) :
    Effect s i t := by
  have hi := s.i.isLt
  rcases accessing_cases s.i.toNat n s done with ⟨hr, h'⟩ | ⟨-, h'⟩
  · rw [h'] at h; cases h; exact hd hr
  · rw [h'] at h; cases h; exact .fatal _ ⟨by omega, by omega⟩

theorem Effect.of_skipIf {i : Instr} {s t : State} {c : Bool} (h : Host.Outcome.next (s.skipIf c) = (.next t : Result)) :
    Effect s i t := by
  cases h
  rw [State.skipIf_eq]
  exact .pass _ (by cases c <;> simp)

theorem Effect.of_skipOnKey {i : Instr} {s t : State} {level : Bool} {x : Nibble}
    (h : skipOnKey level x s = .next t) : Effect s i t := by
  unfold skipOnKey at h
  rcases keyAt_cases (s.getV x) s with ⟨hv, hk⟩ | ⟨-, hk⟩
  · rw [hk] at h; cases h; exact .fatal _ (show 0x10 ≤ (s.getV x).toNat by omega)
  · rw [hk] at h; exact Effect.of_skipIf h

theorem State.drawSprite_eq (x y n : Nibble) (s : State) : ∃ (v : Vector Byte 16) (fb : Framebuffer),
    s.drawSprite x y n = { s with v := v, fb := fb, changed := true, pc := s.pc + 2 } := ⟨_, _, rfl⟩

/-- The inversion of `exec`: whatever instruction answers `t` has had one of these effects. -/
theorem exec_effect {i : Instr} {s t : State} (h : exec i s = .next t) : Effect s i t := by
  cases i with
  | sys | seImm | sneImm | seReg | sneReg =>
    first
    | exact Effect.of_skipIf h
    | (cases h; exact .pass _ (Or.inl rfl))
  | ldImm | addImm | ldReg | orReg | andReg | xorReg | addReg | subReg | subn | rnd | ldVxDt =>
    cases h; exact .regs _ _
  | shr | shl => cases h; exact .regs _ _
  | cls => cases h; exact .paint _ _ (Or.inl rfl)
  | drw x y n =>
    obtain ⟨v, fb, hd⟩ := State.drawSprite_eq x y n s
    have he : Effect s (.drw x y n) (s.drawSprite x y n) := by
      rw [hd]; exact .paint v fb (Or.inr ⟨x, y, n, rfl⟩)
    simp only [exec, execDrw] at h
    split_ifs at h
    · cases h; exact he
    · exact Effect.of_accessing h fun _ => he
  | jp nnn =>
    cases h
    refine .jump _ ?_
    have := nnn.isLt
    simp only [addrWord, BitVec.toNat_setWidth]; omega
  | jpV0 nnn =>
    cases h
    refine .jump _ ?_
    have := nnn.isLt
    have := (s.getV 0).isLt
    simp only [addrWord, byteWord, BitVec.toNat_add, BitVec.toNat_setWidth]; omega
  | call nnn =>
    simp only [exec, execCall] at h
    rcases s.push_cases (s.pc + 2) with ⟨hf, hp⟩ | ⟨hl, hp⟩
    · rw [hp] at h; cases h; exact .fatal _ hf
    · rw [hp] at h; cases h; exact .call hl
  | ret =>
    simp only [exec, execRet] at h
    rcases s.pop_cases with ⟨hf, hp⟩ | ⟨h0, hl, hp⟩
    · rw [hp] at h; cases h; exact .fatal _ hf
    · rw [hp] at h; cases h; exact .ret hl h0
  | ldI nnn => cases h; exact .index _ (Or.inl ⟨nnn, rfl⟩)
  | addI x => cases h; exact .index _ (Or.inr (Or.inl ⟨x, rfl⟩))
  | ldF x => cases h; exact .index _ (Or.inr (Or.inr ⟨x, rfl⟩))
  | skp | sknp => exact Effect.of_skipOnKey h
  | ldDtVx => cases h; exact .delay
  | ldStVx => cases h; exact .sound
  | ldVxK => cases h; exact .wait
  | ldB x =>
    refine Effect.of_accessing h fun hr => ?_
    rw [State.advance_eq, State.storeBytes_pc]
    exact .store _ _ (Or.inl ⟨x, rfl⟩) (by rw [bcdDigits_length]; omega)
  | ldMemVx x =>
    refine Effect.of_accessing h fun hr => ?_
    rw [State.advance_eq, State.storeBytes_pc]
    exact .store _ _ (Or.inr ⟨x, rfl⟩) (by rw [dumpBytes_length]; omega)
  | ldVxMem x =>
    refine Effect.of_accessing h fun _ => ?_
    obtain ⟨v, hv⟩ := State.loadRegs_eq s.i.toNat (x.toNat + 1) s
    rw [hv]; exact .regs v s.draws

end Sys2Proof.Machine
end

