-- ==== Sys2Proof/Laws/PerInstr.lean ====
section
/-! SUPPORT. For every instruction, as syntax: its word lies in its row of the opcode map, `w & mask = match`
(30_encoding.md R51, the table's last sentence). The masks and matches are those of the spec's table, so this checks
the encoder against columns it was not written from. -/

namespace Sys2Proof.Laws.RowPattern

/-- The `mask` column of R51. -/
def rowMask : Instr → Word
  | .sys _ => 0xF000
  | .cls => 0xFFFF
  | .ret => 0xFFFF
  | .jp _ => 0xF000
  | .call _ => 0xF000
  | .seImm _ _ => 0xF000
  | .sneImm _ _ => 0xF000
  | .seReg _ _ => 0xF00F
  | .ldImm _ _ => 0xF000
  | .addImm _ _ => 0xF000
  | .ldReg _ _ => 0xF00F
  | .orReg _ _ => 0xF00F
  | .andReg _ _ => 0xF00F
  | .xorReg _ _ => 0xF00F
  | .addReg _ _ => 0xF00F
  | .subReg _ _ => 0xF00F
  | .shr _ _ => 0xF00F
  | .subn _ _ => 0xF00F
  | .shl _ _ => 0xF00F
  | .sneReg _ _ => 0xF00F
  | .ldI _ => 0xF000
  | .jpV0 _ => 0xF000
  | .rnd _ _ => 0xF000
  | .drw _ _ _ => 0xF000
  | .skp _ => 0xF0FF
  | .sknp _ => 0xF0FF
  | .ldVxDt _ => 0xF0FF
  | .ldVxK _ => 0xF0FF
  | .ldDtVx _ => 0xF0FF
  | .ldStVx _ => 0xF0FF
  | .addI _ => 0xF0FF
  | .ldF _ => 0xF0FF
  | .ldB _ => 0xF0FF
  | .ldMemVx _ => 0xF0FF
  | .ldVxMem _ => 0xF0FF

/-- The `match` column of R51. -/
def rowMatch : Instr → Word
  | .sys _ => 0x0000
  | .cls => 0x00E0
  | .ret => 0x00EE
  | .jp _ => 0x1000
  | .call _ => 0x2000
  | .seImm _ _ => 0x3000
  | .sneImm _ _ => 0x4000
  | .seReg _ _ => 0x5000
  | .ldImm _ _ => 0x6000
  | .addImm _ _ => 0x7000
  | .ldReg _ _ => 0x8000
  | .orReg _ _ => 0x8001
  | .andReg _ _ => 0x8002
  | .xorReg _ _ => 0x8003
  | .addReg _ _ => 0x8004
  | .subReg _ _ => 0x8005
  | .shr _ _ => 0x8006
  | .subn _ _ => 0x8007
  | .shl _ _ => 0x800E
  | .sneReg _ _ => 0x9000
  | .ldI _ => 0xA000
  | .jpV0 _ => 0xB000
  | .rnd _ _ => 0xC000
  | .drw _ _ _ => 0xD000
  | .skp _ => 0xE09E
  | .sknp _ => 0xE0A1
  | .ldVxDt _ => 0xF007
  | .ldVxK _ => 0xF00A
  | .ldDtVx _ => 0xF015
  | .ldStVx _ => 0xF018
  | .addI _ => 0xF01E
  | .ldF _ => 0xF029
  | .ldB _ => 0xF033
  | .ldMemVx _ => 0xF055
  | .ldVxMem _ => 0xF065

/-- The instruction's word matches its own row of R51. -/
def Statement (i : Instr) : Prop := encode i &&& rowMask i = rowMatch i

theorem sys (nnn : Addr) : Statement (.sys nnn) := by
  refine BitVec.eq_of_getLsbD_eq fun k hk => ?_
  simp only [encode, rowMask, rowMatch, BitVec.getLsbD_and, BitVec.getLsbD_append]
  interval_cases k <;> simp

theorem cls : Statement .cls := by unfold Statement; decide

theorem ret : Statement .ret := by unfold Statement; decide

theorem jp (nnn : Addr) : Statement (.jp nnn) := by
  refine BitVec.eq_of_getLsbD_eq fun k hk => ?_
  simp only [encode, rowMask, rowMatch, BitVec.getLsbD_and, BitVec.getLsbD_append]
  interval_cases k <;> simp

theorem call (nnn : Addr) : Statement (.call nnn) := by
  refine BitVec.eq_of_getLsbD_eq fun k hk => ?_
  simp only [encode, rowMask, rowMatch, BitVec.getLsbD_and, BitVec.getLsbD_append]
  interval_cases k <;> simp

theorem seImm (x : Nibble) (nn : Byte) : Statement (.seImm x nn) := by
  refine BitVec.eq_of_getLsbD_eq fun k hk => ?_
  simp only [encode, rowMask, rowMatch, BitVec.getLsbD_and, BitVec.getLsbD_append]
  interval_cases k <;> simp

theorem sneImm (x : Nibble) (nn : Byte) : Statement (.sneImm x nn) := by
  refine BitVec.eq_of_getLsbD_eq fun k hk => ?_
  simp only [encode, rowMask, rowMatch, BitVec.getLsbD_and, BitVec.getLsbD_append]
  interval_cases k <;> simp

theorem seReg (x : Nibble) (y : Nibble) : Statement (.seReg x y) := by
  refine BitVec.eq_of_getLsbD_eq fun k hk => ?_
  simp only [encode, rowMask, rowMatch, BitVec.getLsbD_and, BitVec.getLsbD_append]
  interval_cases k <;> simp

theorem ldImm (x : Nibble) (nn : Byte) : Statement (.ldImm x nn) := by
  refine BitVec.eq_of_getLsbD_eq fun k hk => ?_
  simp only [encode, rowMask, rowMatch, BitVec.getLsbD_and, BitVec.getLsbD_append]
  interval_cases k <;> simp

theorem addImm (x : Nibble) (nn : Byte) : Statement (.addImm x nn) := by
  refine BitVec.eq_of_getLsbD_eq fun k hk => ?_
  simp only [encode, rowMask, rowMatch, BitVec.getLsbD_and, BitVec.getLsbD_append]
  interval_cases k <;> simp

theorem ldReg (x : Nibble) (y : Nibble) : Statement (.ldReg x y) := by
  refine BitVec.eq_of_getLsbD_eq fun k hk => ?_
  simp only [encode, rowMask, rowMatch, BitVec.getLsbD_and, BitVec.getLsbD_append]
  interval_cases k <;> simp

theorem orReg (x : Nibble) (y : Nibble) : Statement (.orReg x y) := by
  refine BitVec.eq_of_getLsbD_eq fun k hk => ?_
  simp only [encode, rowMask, rowMatch, BitVec.getLsbD_and, BitVec.getLsbD_append]
  interval_cases k <;> simp

theorem andReg (x : Nibble) (y : Nibble) : Statement (.andReg x y) := by
  refine BitVec.eq_of_getLsbD_eq fun k hk => ?_
  simp only [encode, rowMask, rowMatch, BitVec.getLsbD_and, BitVec.getLsbD_append]
  interval_cases k <;> simp

theorem xorReg (x : Nibble) (y : Nibble) : Statement (.xorReg x y) := by
  refine BitVec.eq_of_getLsbD_eq fun k hk => ?_
  simp only [encode, rowMask, rowMatch, BitVec.getLsbD_and, BitVec.getLsbD_append]
  interval_cases k <;> simp

theorem addReg (x : Nibble) (y : Nibble) : Statement (.addReg x y) := by
  refine BitVec.eq_of_getLsbD_eq fun k hk => ?_
  simp only [encode, rowMask, rowMatch, BitVec.getLsbD_and, BitVec.getLsbD_append]
  interval_cases k <;> simp

theorem subReg (x : Nibble) (y : Nibble) : Statement (.subReg x y) := by
  refine BitVec.eq_of_getLsbD_eq fun k hk => ?_
  simp only [encode, rowMask, rowMatch, BitVec.getLsbD_and, BitVec.getLsbD_append]
  interval_cases k <;> simp

theorem shr (x : Nibble) (y : Nibble) : Statement (.shr x y) := by
  refine BitVec.eq_of_getLsbD_eq fun k hk => ?_
  simp only [encode, rowMask, rowMatch, BitVec.getLsbD_and, BitVec.getLsbD_append]
  interval_cases k <;> simp

theorem subn (x : Nibble) (y : Nibble) : Statement (.subn x y) := by
  refine BitVec.eq_of_getLsbD_eq fun k hk => ?_
  simp only [encode, rowMask, rowMatch, BitVec.getLsbD_and, BitVec.getLsbD_append]
  interval_cases k <;> simp

theorem shl (x : Nibble) (y : Nibble) : Statement (.shl x y) := by
  refine BitVec.eq_of_getLsbD_eq fun k hk => ?_
  simp only [encode, rowMask, rowMatch, BitVec.getLsbD_and, BitVec.getLsbD_append]
  interval_cases k <;> simp

theorem sneReg (x : Nibble) (y : Nibble) : Statement (.sneReg x y) := by
  refine BitVec.eq_of_getLsbD_eq fun k hk => ?_
  simp only [encode, rowMask, rowMatch, BitVec.getLsbD_and, BitVec.getLsbD_append]
  interval_cases k <;> simp

theorem ldI (nnn : Addr) : Statement (.ldI nnn) := by
  refine BitVec.eq_of_getLsbD_eq fun k hk => ?_
  simp only [encode, rowMask, rowMatch, BitVec.getLsbD_and, BitVec.getLsbD_append]
  interval_cases k <;> simp

theorem jpV0 (nnn : Addr) : Statement (.jpV0 nnn) := by
  refine BitVec.eq_of_getLsbD_eq fun k hk => ?_
  simp only [encode, rowMask, rowMatch, BitVec.getLsbD_and, BitVec.getLsbD_append]
  interval_cases k <;> simp

theorem rnd (x : Nibble) (nn : Byte) : Statement (.rnd x nn) := by
  refine BitVec.eq_of_getLsbD_eq fun k hk => ?_
  simp only [encode, rowMask, rowMatch, BitVec.getLsbD_and, BitVec.getLsbD_append]
  interval_cases k <;> simp

theorem drw (x : Nibble) (y : Nibble) (n : Nibble) : Statement (.drw x y n) := by
  refine BitVec.eq_of_getLsbD_eq fun k hk => ?_
  simp only [encode, rowMask, rowMatch, BitVec.getLsbD_and, BitVec.getLsbD_append]
  interval_cases k <;> simp

theorem skp (x : Nibble) : Statement (.skp x) := by
  refine BitVec.eq_of_getLsbD_eq fun k hk => ?_
  simp only [encode, rowMask, rowMatch, BitVec.getLsbD_and, BitVec.getLsbD_append]
  interval_cases k <;> simp

theorem sknp (x : Nibble) : Statement (.sknp x) := by
  refine BitVec.eq_of_getLsbD_eq fun k hk => ?_
  simp only [encode, rowMask, rowMatch, BitVec.getLsbD_and, BitVec.getLsbD_append]
  interval_cases k <;> simp

theorem ldVxDt (x : Nibble) : Statement (.ldVxDt x) := by
  refine BitVec.eq_of_getLsbD_eq fun k hk => ?_
  simp only [encode, rowMask, rowMatch, BitVec.getLsbD_and, BitVec.getLsbD_append]
  interval_cases k <;> simp

theorem ldVxK (x : Nibble) : Statement (.ldVxK x) := by
  refine BitVec.eq_of_getLsbD_eq fun k hk => ?_
  simp only [encode, rowMask, rowMatch, BitVec.getLsbD_and, BitVec.getLsbD_append]
  interval_cases k <;> simp

theorem ldDtVx (x : Nibble) : Statement (.ldDtVx x) := by
  refine BitVec.eq_of_getLsbD_eq fun k hk => ?_
  simp only [encode, rowMask, rowMatch, BitVec.getLsbD_and, BitVec.getLsbD_append]
  interval_cases k <;> simp

theorem ldStVx (x : Nibble) : Statement (.ldStVx x) := by
  refine BitVec.eq_of_getLsbD_eq fun k hk => ?_
  simp only [encode, rowMask, rowMatch, BitVec.getLsbD_and, BitVec.getLsbD_append]
  interval_cases k <;> simp

theorem addI (x : Nibble) : Statement (.addI x) := by
  refine BitVec.eq_of_getLsbD_eq fun k hk => ?_
  simp only [encode, rowMask, rowMatch, BitVec.getLsbD_and, BitVec.getLsbD_append]
  interval_cases k <;> simp

theorem ldF (x : Nibble) : Statement (.ldF x) := by
  refine BitVec.eq_of_getLsbD_eq fun k hk => ?_
  simp only [encode, rowMask, rowMatch, BitVec.getLsbD_and, BitVec.getLsbD_append]
  interval_cases k <;> simp

theorem ldB (x : Nibble) : Statement (.ldB x) := by
  refine BitVec.eq_of_getLsbD_eq fun k hk => ?_
  simp only [encode, rowMask, rowMatch, BitVec.getLsbD_and, BitVec.getLsbD_append]
  interval_cases k <;> simp

theorem ldMemVx (x : Nibble) : Statement (.ldMemVx x) := by
  refine BitVec.eq_of_getLsbD_eq fun k hk => ?_
  simp only [encode, rowMask, rowMatch, BitVec.getLsbD_and, BitVec.getLsbD_append]
  interval_cases k <;> simp

theorem ldVxMem (x : Nibble) : Statement (.ldVxMem x) := by
  refine BitVec.eq_of_getLsbD_eq fun k hk => ?_
  simp only [encode, rowMask, rowMatch, BitVec.getLsbD_and, BitVec.getLsbD_append]
  interval_cases k <;> simp

end Sys2Proof.Laws.RowPattern
end

