-- ==== Sys2Proof/Laws/Step.lean ====
section
/-! SUPPORT. What one Step can do, said once: the inversion of `step`. -/

namespace Sys2Proof.Machine

/-- The cases of a Step: nothing (halted, or waiting), a key wait resolved, a fetch out of range, an `Unknown` word, or
an executed instruction. -/
inductive Stepped (s : State) : State → Prop where
  | still : Stepped s s
  | resolve (k : Nibble) : s.run = .running → s.await = true → s.leastKey = some k → Stepped s (s.resolveWait k)
  | fetchFault (e : FatalError) : s.Ready → RaisedIn s e → Stepped s (s.raiseFatal e)
  | unknown : s.Ready → s.pc.toNat + 1 ≤ 0xFFF → Stepped s s.decodeError
  | execute {t : State} (i : Instr) (w : Word) : s.Ready → s.fetch = .ok w → decodeWord w = .ok i →
      exec i s = .next t → Effect s i t → Stepped s t

/-- The inversion of `step`. -/
theorem step_cases {s t : State} (h : step s = .next t) : Stepped s t := by
  unfold step at h
  cases ha : s.nextAction with
  | execute i w =>
    rw [ha] at h
    obtain ⟨hr, hf, hd⟩ := State.nextAction_execute.1 ha
    exact .execute i w hr hf hd h (exec_effect h)
  | halted => rw [ha] at h; cases h; exact .still
  | waiting => rw [ha] at h; cases h; exact .still
  | resolve k =>
    rw [ha] at h; cases h
    unfold State.nextAction at ha
    cases hr : s.run <;> cases hw : s.await <;> simp only [hr, hw] at ha
    · cases hf : s.fetch with
      | error e => simp [hf] at ha
      | ok w => cases hd : decodeWord w <;> simp [hf, hd] at ha
    · cases hk : s.leastKey with
      | none => simp [hk] at ha
      | some j => simp [hk] at ha; subst ha; exact .resolve j hr hw hk
    · simp at ha
    · simp at ha
  | fetchFault e =>
    rw [ha] at h; cases h
    unfold State.nextAction at ha
    cases hr : s.run <;> cases hw : s.await <;> simp only [hr, hw] at ha
    · rcases s.fetch_cases with ⟨-, hf⟩ | ⟨hpc, hf⟩
      · cases hd : decodeWord (wordOfBytes (s.memRead s.pc.toNat) (s.memRead (s.pc.toNat + 1))) <;>
          simp [hf, hd] at ha
      · simp [hf] at ha
        have := s.pc.isLt
        exact .fetchFault e ⟨hr, hw⟩ (ha ▸ ⟨by omega, by omega⟩)
    · cases hk : s.leastKey <;> simp [hk] at ha
    · simp at ha
    · simp at ha
  | unknown w =>
    rw [ha] at h; cases h
    unfold State.nextAction at ha
    cases hr : s.run <;> cases hw : s.await <;> simp only [hr, hw] at ha
    · rcases s.fetch_cases with ⟨hpc, -⟩ | ⟨-, hf⟩
      · exact .unknown ⟨hr, hw⟩ hpc
      · simp [hf] at ha
    · cases hk : s.leastKey <;> simp [hk] at ha
    · simp at ha
    · simp at ha

end Sys2Proof.Machine
end

