-- ==== Sys2Proof/Tests/Slice0.lean ====
section
/-! SUPPORT. Tests. The expected results are worked examples (S) and vectors (T) of 95_test_vectors.md, or words written
out bit by bit from 30_encoding.md R51; then one witness for the hypotheses of each statement. -/

namespace Sys2Proof.Tests

open Sys2Proof.Machine

/-- The start state of 95_test_vectors.md: Reset, with the word under test at 0x200. -/
def withWord (w : Word) : State := State.reset.placeWord w

/-! ## Well-formedness: the one check there is (R52) refuses both words that are not SYS -/

theorem test_sys_0E0_is_ill_formed : WellFormed (.sys 0x0E0) = false := by decide
theorem test_sys_0EE_is_ill_formed : WellFormed (.sys 0x0EE) = false := by decide
theorem test_sys_0E1_is_well_formed : WellFormed (.sys 0x0E1) = true := by decide

/-! ## Decoding: every constructor from a word written out in binary, fields G x y N of R48 -/

theorem test_decode_sys : decodeWord 0b0000_0010_0011_0100 = .ok (.sys 0x234) := by decide
theorem test_decode_cls : decodeWord 0b0000_0000_1110_0000 = .ok .cls := by decide
theorem test_decode_ret : decodeWord 0b0000_0000_1110_1110 = .ok .ret := by decide
theorem test_decode_jp : decodeWord 0b0001_0010_0011_0100 = .ok (.jp 0x234) := by decide
theorem test_decode_call : decodeWord 0b0010_0011_0000_0001 = .ok (.call 0x301) := by decide
theorem test_decode_seImm : decodeWord 0b0011_0011_0010_1010 = .ok (.seImm 3 0x2A) := by decide
theorem test_decode_sneImm : decodeWord 0b0100_0011_0010_1010 = .ok (.sneImm 3 0x2A) := by decide
theorem test_decode_seReg : decodeWord 0b0101_0001_0010_0000 = .ok (.seReg 1 2) := by decide
theorem test_decode_ldImm : decodeWord 0b0110_1010_0100_0010 = .ok (.ldImm 0xA 0x42) := by decide
theorem test_decode_addImm : decodeWord 0b0111_0011_0110_0100 = .ok (.addImm 3 0x64) := by decide
theorem test_decode_ldReg : decodeWord 0b1000_0001_0010_0000 = .ok (.ldReg 1 2) := by decide
theorem test_decode_orReg : decodeWord 0b1000_0001_0010_0001 = .ok (.orReg 1 2) := by decide
theorem test_decode_andReg : decodeWord 0b1000_0001_0010_0010 = .ok (.andReg 1 2) := by decide
theorem test_decode_xorReg : decodeWord 0b1000_0001_0010_0011 = .ok (.xorReg 1 2) := by decide
theorem test_decode_addReg : decodeWord 0b1000_1111_0001_0100 = .ok (.addReg 0xF 1) := by decide
theorem test_decode_subReg : decodeWord 0b1000_0001_0010_0101 = .ok (.subReg 1 2) := by decide
theorem test_decode_shr : decodeWord 0b1000_0001_0010_0110 = .ok (.shr 1 2) := by decide
theorem test_decode_subn : decodeWord 0b1000_0001_0010_0111 = .ok (.subn 1 2) := by decide
theorem test_decode_shl : decodeWord 0b1000_0001_0010_1110 = .ok (.shl 1 2) := by decide
theorem test_decode_sneReg : decodeWord 0b1001_0001_0010_0000 = .ok (.sneReg 1 2) := by decide
theorem test_decode_ldI : decodeWord 0b1010_0010_1111_0000 = .ok (.ldI 0x2F0) := by decide
theorem test_decode_jpV0 : decodeWord 0b1011_0011_0000_0000 = .ok (.jpV0 0x300) := by decide
theorem test_decode_rnd : decodeWord 0b1100_0011_0000_1111 = .ok (.rnd 3 0x0F) := by decide
theorem test_decode_drw : decodeWord 0b1101_0001_0010_0101 = .ok (.drw 1 2 5) := by decide
theorem test_decode_skp : decodeWord 0b1110_0101_1001_1110 = .ok (.skp 5) := by decide
theorem test_decode_sknp : decodeWord 0b1110_0101_1010_0001 = .ok (.sknp 5) := by decide
theorem test_decode_ldVxDt : decodeWord 0b1111_0001_0000_0111 = .ok (.ldVxDt 1) := by decide
theorem test_decode_ldVxK : decodeWord 0b1111_0011_0000_1010 = .ok (.ldVxK 3) := by decide
theorem test_decode_ldDtVx : decodeWord 0b1111_0001_0001_0101 = .ok (.ldDtVx 1) := by decide
theorem test_decode_ldStVx : decodeWord 0b1111_0010_0001_1000 = .ok (.ldStVx 2) := by decide
theorem test_decode_addI : decodeWord 0b1111_0010_0001_1110 = .ok (.addI 2) := by decide
theorem test_decode_ldF : decodeWord 0b1111_0010_0010_1001 = .ok (.ldF 2) := by decide
theorem test_decode_ldB : decodeWord 0b1111_1010_0011_0011 = .ok (.ldB 0xA) := by decide
theorem test_decode_ldMemVx : decodeWord 0b1111_0010_0101_0101 = .ok (.ldMemVx 2) := by decide
theorem test_decode_ldVxMem : decodeWord 0b1111_0010_0110_0101 = .ok (.ldVxMem 2) := by decide

/-- T94 to T100: the unrecognised words of R53, one per group. -/
theorem test_decode_unknown :
    [0x5121, 0x8008, 0x800F, 0x9121, 0xE09F, 0xF000, 0xF0FF].all
      (fun w => decide (decodeWord w = .error (.unknown w))) = true := by decide

/-- The bytes lie high byte first (R34, S13), and the table's numbering reads the same word. -/
theorem test_decode_table_word :
    decode [0x12, 0x34] = .ok (.jp 0x234, []) ∧ decodeTableWord 16 0x1234 = some (.jp 0x234) := by decide

/-! ## One step each: control transfer and skips (T1 to T21, T45 to T47) -/

/-- T21. -/
theorem test_sys : (stepState (withWord 0x0234)).pc = 0x202 ∧
    stepResult (withWord 0x0234) = .decodeError 0x200 0x0234 := by decide

/-- T5. -/
theorem test_ret :
    let s := stepState { withWord 0x00EE with sp := 1, stack := State.reset.stack.set 0 0x206 }
    s.pc = 0x206 ∧ s.sp = 0 := by decide

/-- T45. -/
theorem test_ret_underflow : stepState (withWord 0x00EE) = (withWord 0x00EE).raiseFatal .stackUnderflow ∧
    stepResult (withWord 0x00EE) = .fatal .stackUnderflow := by decide

/-- T3. -/
theorem test_jp : (stepState (withWord 0x1FFF)).pc = 0xFFF ∧
    stepResult (stepState (withWord 0x1FFF)) = .fatal (.memOutOfRange 0x1000) := by decide

/-- T46. -/
theorem test_call :
    let s := stepState { withWord 0x2300 with sp := 15 }
    s.stack[15] = 0x202 ∧ s.sp = 16 ∧ s.pc = 0x300 := by decide

/-- T47. -/
theorem test_call_overflow :
    let s : State := { withWord 0x2300 with sp := 16 }
    stepState s = s.raiseFatal .stackOverflow ∧ stepResult s = .fatal .stackOverflow := by decide

/-- T6 and T7. -/
theorem test_seImm : (stepState ((withWord 0x332A).setV 3 0x2A)).pc = 0x204 ∧
    (stepState ((withWord 0x332A).setV 3 0x2B)).pc = 0x202 := by decide

/-- T8 and T9. -/
theorem test_sneImm : (stepState ((withWord 0x432A).setV 3 0x2B)).pc = 0x204 ∧
    (stepState ((withWord 0x432A).setV 3 0x2A)).pc = 0x202 := by decide

/-- T10 and T11. -/
theorem test_seReg : (stepState (((withWord 0x5120).setV 1 7).setV 2 7)).pc = 0x204 ∧
    (stepState (((withWord 0x5120).setV 1 7).setV 2 8)).pc = 0x202 := by decide

/-- T13 and T14. -/
theorem test_sneReg : (stepState (((withWord 0x9120).setV 1 7).setV 2 8)).pc = 0x204 ∧
    (stepState (((withWord 0x9120).setV 1 7).setV 2 7)).pc = 0x202 := by decide

/-- T18. -/
theorem test_jpV0_does_not_wrap : (stepState ((withWord 0xBFFF).setV 0 0xFF)).pc = 0x10FE ∧
    stepResult (stepState ((withWord 0xBFFF).setV 0 0xFF)) = .fatal (.memOutOfRange 0x10FE) := by decide

/-- T19. -/
theorem test_jpV0_adds_v0 : (stepState ((withWord 0xB300).setV 5 0x40)).pc = 0x300 := by decide

/-! ## ALU (T22 to T44) -/

/-- T22. -/
theorem test_ldImm : (stepState (withWord 0x6A42)).getV 0xA = 0x42 := by decide

/-- T23. -/
theorem test_addImm :
    let s := stepState (((withWord 0x7002).setV 0 0xFF).setV 0xF 0x55)
    s.getV 0 = 0x01 ∧ s.getV 0xF = 0x55 := by decide

/-- T25. -/
theorem test_ldReg : (stepState (((withWord 0x8010).setV 0 0x33).setV 1 0x44)).getV 0 = 0x44 := by decide

/-- T26. -/
theorem test_orReg :
    let s := stepState ((((withWord 0x8011).setV 0 0xF0).setV 1 0x0F).setV 0xF 0x55)
    s.getV 0 = 0xFF ∧ s.getV 0xF = 0x55 := by decide

/-- T27. -/
theorem test_andReg :
    let s := stepState ((((withWord 0x8012).setV 0 0xF0).setV 1 0x3C).setV 0xF 0x55)
    s.getV 0 = 0x30 ∧ s.getV 0xF = 0x55 := by decide

/-- T28. -/
theorem test_xorReg :
    let s := stepState ((((withWord 0x8013).setV 0 0xF0).setV 1 0x3C).setV 0xF 0x55)
    s.getV 0 = 0xCC ∧ s.getV 0xF = 0x55 := by decide

/-- T33. -/
theorem test_addReg :
    let s := stepState (((withWord 0x8014).setV 0 0xFF).setV 1 0xFF)
    s.getV 0 = 0xFE ∧ s.getV 0xF = 0x01 := by decide

/-- T35: with x = F the flag overwrites the sum. -/
theorem test_addReg_flag_last : (stepState (((withWord 0x8F14).setV 0xF 0xFF).setV 1 0x01)).getV 0xF = 0x01 := by decide

/-- T38. -/
theorem test_subReg :
    let s := stepState (((withWord 0x8015).setV 0 0x00).setV 1 0x01)
    s.getV 0 = 0xFF ∧ s.getV 0xF = 0x00 := by decide

/-- T40: with x = F the flag overwrites the difference. -/
theorem test_subReg_flag_last : (stepState (((withWord 0x8F15).setV 0xF 0x05).setV 1 0x0A)).getV 0xF = 0x00 := by decide

/-- T41. -/
theorem test_subn :
    let s := stepState (((withWord 0x8017).setV 0 0x0A).setV 1 0x05)
    s.getV 0 = 0xFB ∧ s.getV 0xF = 0x00 := by decide

/-- T43: equal operands do not borrow. -/
theorem test_subn_equal :
    let s := stepState (((withWord 0x8017).setV 0 0x03).setV 1 0x03)
    s.getV 0 = 0x00 ∧ s.getV 0xF = 0x01 := by decide

/-- The registers an answer holds: V0, V1 and VF. -/
def v01F (r : Result) : Option (Byte × Byte × Byte) :=
  match r with
  | .next t => some (t.getV 0, t.getV 1, t.getV 0xF)
  | .fault _ => none
  | .refused _ => none

/-- T44c, under both settings of SHIFT_SRC. -/
theorem test_shr : v01F (exec (.shr 0 0) (State.reset.setV 0 0xFF)) = some (0x7F, 0, 1) := by
  show v01F (shiftRight Config.shiftSrc 0 0 (State.reset.setV 0 0xFF)) = _
  cases Config.shiftSrc <;> decide

/-- T44d and T44e. -/
theorem test_shr_source : v01F (shiftRight .vy 0 1 (State.reset.setV 1 3)) = some (1, 3, 1) ∧
    v01F (shiftRight .vx 0 1 (State.reset.setV 1 3)) = some (0, 3, 0) := by decide

/-- T44i, under both settings of SHIFT_SRC. -/
theorem test_shl : v01F (exec (.shl 0 0) (State.reset.setV 0 0xFF)) = some (0xFE, 0, 1) := by
  show v01F (shiftLeft Config.shiftSrc 0 0 (State.reset.setV 0 0xFF)) = _
  cases Config.shiftSrc <;> decide

/-- T44j. -/
theorem test_shl_source : v01F (shiftLeft .vy 0 1 (State.reset.setV 1 0x81)) = some (0x02, 0x81, 1) := by decide

/-- T44m's form: the draw AND 0x0F, whatever the draw. -/
theorem test_rnd : (stepState (withWord 0xC30F)).getV 3 = Config.rng 0 &&& 0x0F := rfl

/-- T44l. -/
theorem test_rnd_zero_mask : (stepState (withWord 0xC000)).getV 0 = 0 := by
  show Config.rng 0 &&& 0 = 0
  simp

/-! ## Index register and memory (T48 to T68) -/

/-- T48. -/
theorem test_ldI : (stepState (withWord 0xA2F0)).i = 0x2F0 := by decide

/-- T50: no 12-bit mask and no flag. -/
theorem test_addI :
    let s := stepState (((withWord 0xF01E).setV 0 0x01).setI 0xFFF)
    s.i = 0x1000 ∧ s.getV 0xF = 0x00 := by decide

/-- T51. -/
theorem test_addI_wraps : (stepState (((withWord 0xF01E).setV 0 0x01).setI 0xFFFF)).i = 0x0000 := by decide

/-- T53. -/
theorem test_ldF : (stepState ((withWord 0xF029).setV 0 0x0F)).i = 0x09B := by decide

/-- T55: no nibble mask. -/
theorem test_ldF_no_mask : (stepState ((withWord 0xF029).setV 0 0xFF)).i = 0x54B := by decide

/-- S11. -/
theorem test_ldB :
    let s := stepState (((withWord 0xF033).setV 0 0xEA).setI 0x300)
    s.memRead 0x300 = 2 ∧ s.memRead 0x301 = 3 ∧ s.memRead 0x302 = 4 ∧ s.i = 0x300 := by decide

/-- T61: nothing is written. -/
theorem test_ldB_out_of_range :
    let s := ((withWord 0xF033).setV 0 0x01).setI 0xFFE
    stepState s = s.raiseFatal (.memOutOfRange 0x1000) := by decide

/-- T65. -/
theorem test_ldMemVx :
    let s := stepState (((((withWord 0xF255).setV 0 1).setV 1 2).setV 2 3).setI 0x400)
    s.memRead 0x400 = 1 ∧ s.memRead 0x401 = 2 ∧ s.memRead 0x402 = 3 ∧ s.memRead 0x403 = 0 := by decide

/-- T63: the last register lands in the last byte. -/
theorem test_ldMemVx_top :
    let s := stepState (((withWord 0xFF55).setV 0xF 0xAB).setI 0xFF0)
    s.memRead 0xFFF = 0xAB ∧ s.i = 0xFF0 := by decide

/-- T66. -/
theorem test_ldVxMem :
    let s := stepState (((withWord 0xF265).setI 0x400).storeBytes [1, 2, 3, 4] 0x400)
    s.getV 0 = 1 ∧ s.getV 1 = 2 ∧ s.getV 2 = 3 ∧ s.getV 3 = 0 := by decide

/-- T68. -/
theorem test_ldVxMem_out_of_range :
    let s := (withWord 0xF165).setI 0xFFF
    stepState s = s.raiseFatal (.memOutOfRange 0x1000) := by decide

/-! ## Display (T69 to T77) -/

/-- T77 with cell 5 on. -/
theorem test_cls :
    let s := stepState { withWord 0x00E0 with fb := Framebuffer.toggle State.reset.fb 5 }
    s.fb = State.reset.fb ∧ s.changed = true := by decide

/-- T69: each pixel wraps on its own. -/
theorem test_drw_wraps :
    let s := stepState (((((withWord 0xD011).setV 0 63).setV 1 31).setI 0x300).memWrite 0x300 0xC0)
    s.fb = Framebuffer.toggle (Framebuffer.toggle State.reset.fb 2047) 1984 ∧ s.getV 0xF = 0 ∧
      s.changed = true := by decide

/-- T71: a cell that goes from on to off collides. -/
theorem test_drw_collides :
    let s := stepState { (((withWord 0xD011).setI 0x300).memWrite 0x300 0xC0) with
      fb := Framebuffer.toggle (Framebuffer.toggle State.reset.fb 1) 5 }
    s.fb = Framebuffer.toggle (Framebuffer.toggle State.reset.fb 0) 5 ∧ s.getV 0xF = 1 := by decide

/-! ## Keypad, timers and the host (T78 to T92, S12) -/

/-- T78 and T79. -/
theorem test_skp : (stepState (((withWord 0xE59E).setV 5 0x0A).keyEvent 0xA true)).pc = 0x204 ∧
    (stepState ((withWord 0xE59E).setV 5 0x0A)).pc = 0x202 := by decide

/-- T82. -/
theorem test_skp_no_such_key :
    let s := (withWord 0xE09E).setV 0 0x10
    stepState s = s.raiseFatal (.keyIndexOutOfRange 0x10) := by decide

/-- T80. -/
theorem test_sknp : (stepState ((withWord 0xE5A1).setV 5 0x0A)).pc = 0x204 := by decide

/-- T81: the highest key. -/
theorem test_sknp_top : (stepState ((withWord 0xE0A1).setV 0 0x0F)).pc = 0x204 := by decide

/-- T83. -/
theorem test_ldVxDt :
    let s := stepState ((withWord 0xF107).setDt 0x3C)
    s.getV 1 = 0x3C ∧ s.dt = 0x3C := by decide

/-- T85, its first Step: the keypad is not sampled. -/
theorem test_ldVxK :
    let s := stepState ((withWord 0xF00A).keyEvent 4 true)
    s.await = true ∧ s.awaitReg = 0 ∧ s.pc = 0x200 ∧ s.getV 0 = 0 := by decide

/-- T84, its last Step: the lowest held key. -/
theorem test_ldVxK_resolves :
    let s := stepState ((((withWord 0xF30A).beginWait 3).keyEvent 7 true).keyEvent 2 true)
    s.getV 3 = 2 ∧ s.await = false ∧ s.pc = 0x202 := by decide

/-- T87. -/
theorem test_ldDtVx : (stepState ((withWord 0xF115).setV 1 0x05)).dt = 5 := by decide

/-- T88, its Step. -/
theorem test_ldStVx : (stepState ((withWord 0xF218).setV 2 0x02)).st = 2 := by decide

/-- T88 to T90. -/
theorem test_tick :
    respond .tick (State.reset.setSt 2) = .tone false ∧ respond .tick (State.reset.setSt 1) = .tone true ∧
    (transact .tick State.reset).dt = 0 ∧ (transact .tick State.reset).st = 0 := by decide

/-- S12, its rejection. -/
theorem test_loadRom_too_long (image : List Byte) (h : image.length = 3585) :
    transact (.loadRom image) State.reset = State.reset := if_pos (by rw [h]; decide)

/-- T105. -/
theorem test_reset_leaves_halted :
    transact .reset (State.reset.raiseFatal .stackOverflow) = State.reset := by decide

/-- R31 and R32: under the default font, the first and the last font byte, and the byte past them. -/
theorem test_default_font : Memory.resetByte default 0x050 = 0xF0 ∧ Memory.resetByte default 0x09F = 0x80 ∧
    Memory.resetByte default 0x0A0 = 0 := by decide

/-- P3's glyph "5" of the default font, F0 80 F0 10 F0, and what a font of zeros holds there. -/
theorem test_font_is_a_parameter :
    (List.ofFn ((default : FontData).glyphRow 5)) = [0xF0, 0x80, 0xF0, 0x10, 0xF0] ∧
    Memory.resetByte ⟨Vector.replicate 80 0⟩ 0x069 = 0 := by decide

/-! ## The placing of a word (log entry 12): at reset, and where the machine is halted and its PC past the end -/

theorem test_withFetchWord : step (State.reset.withFetchWord 16 0x6A42) =
    exec (.ldImm 0xA 0x42) (State.reset.withFetchWord 16 0x6A42) := rfl

theorem test_withFetchWord_halted :
    let s := (State.reset.raiseFatal .stackOverflow).setPc 0x1000
    (s.withFetchWord 16 0x6A42).nextAction = .execute (.ldImm 0xA 0x42) 0x6A42 := by decide

/-! ## Witnesses: states and operands that meet the hypotheses of each statement, at the boundaries -/

theorem witness_TableRowsDecode : sysAddrOk 0x0E1 ∧ sysAddrOk 0x0ED := by decide

/-- SP = 0; SP = 1 (slot 0) and SP = 16 (slot 15). -/
theorem witness_RetPopsOrUnderflows : State.reset.sp.val = 0 ∧
    ({ State.reset with sp := 1 } : State).sp.val = (0 : Fin Config.stackDepth).val + 1 ∧
    ({ State.reset with sp := 16 } : State).sp.val = (15 : Fin Config.stackDepth).val + 1 := by decide

/-- SP = 16; SP = 0 and SP = 15. -/
theorem witness_CallPushesOrOverflows : ({ State.reset with sp := 16 } : State).sp.val = Config.stackDepth ∧
    State.reset.sp.val = (0 : Fin Config.stackDepth).val ∧
    ({ State.reset with sp := 15 } : State).sp.val = (15 : Fin Config.stackDepth).val := by decide

/-- SP = 15, and as the later state the one the CALL leaves. -/
theorem witness_CallThenRetReturns : ({ State.reset with sp := 15 } : State).sp.val < Config.stackDepth ∧
    ∀ t : State, t.sp = t.sp ∧ t.stack = t.stack := ⟨by decide, fun _ => ⟨rfl, rfl⟩⟩

theorem witness_SelfJumpHangs : (withWord 0x1200).Ready ∧
    (withWord 0x1200).fetch.toOption = some (0x1#4 ++ 0x200#12) ∧
    (withWord 0x1200).pc.toNat = (0x200 : Addr).toNat := by decide

/-- A destination that is not VF, as the flag statements' result clauses ask. -/
theorem witness_AddCarries_SubtractionsBorrow_ShiftsMoveOneBit : (0xE#4 : Nibble) ≠ 0xF#4 := by decide

/-- I = 0xFFE is out of range, I = 0xFFD is not. -/
theorem witness_BcdStoresDigits : (State.reset.setI 0xFFE).i.toNat + 2 > 0xFFF ∧
    (State.reset.setI 0xFFD).MemCanonical ∧ (State.reset.setI 0xFFD).i.toNat + 2 ≤ 0xFFF := by decide

/-- I + x = 0x1000 is out of range, I + x = 0xFFF is not. -/
theorem witness_DumpStoresRegisters_LoadReadsRegisters_DumpThenLoadRestores :
    (State.reset.setI 0xFF1).i.toNat + (0xF : Nibble).toNat > 0xFFF ∧ (State.reset.setI 0xFF0).MemCanonical ∧
    (State.reset.setI 0xFF0).i.toNat + (0xF : Nibble).toNat ≤ 0xFFF := by decide

/-- The font stands as Reset left it, and V0 is the last digit. -/
theorem witness_LdFPointsAtGlyph : ((State.reset.setV 0 0xF).getV 0).toNat = (15 : Fin 16).val ∧
    ∀ a : Nat, 0x050 ≤ a → a < 0x0A0 → (State.reset.setV 0 0xF).memRead a = State.reset.memRead a :=
  ⟨by decide, fun _ _ _ => rfl⟩

/-- A ready FX55 whose sixteen bytes end at 0xFFF, and a ready FX33 whose three bytes do, with a fetch at 0xFFE. -/
theorem witness_StoreIsFetchedNext :
    (let s := (withWord 0xFF55).setI 0xFF0
     s.MemCanonical ∧ s.Ready ∧ s.fetch.toOption = some 0xFF55 ∧ decodeWord 0xFF55 = .ok (.ldMemVx 0xF) ∧
       s.i.toNat + (0xF : Nibble).toNat ≤ 0xFFF ∧ ((stepState s).setPc 0xFFE).mem = (stepState s).mem ∧
       ((stepState s).setPc 0xFFE).pc.toNat + 1 ≤ 0xFFF) ∧
    (let s := (withWord 0xFF33).setI 0xFFD
     s.MemCanonical ∧ s.Ready ∧ s.fetch.toOption = some 0xFF33 ∧ decodeWord 0xFF33 = .ok (.ldB 0xF) ∧
       s.i.toNat + 2 ≤ 0xFFF) := by decide

/-- P7's store: FX55 over the next word, which the next Step fetches. -/
theorem test_store_is_fetched_next :
    let s := stepState ((((withWord 0xF155).setV 0 0x6F).setV 1 0x42).setI 0x202)
    s.pc = 0x202 ∧ s.fetch.toOption = some 0x6F42 := by decide

/-- I = 0xFFF: two rows are out of range, one row is not; no row is in range at I = 0xFFFF. -/
theorem witness_DrawFlipsCoveredCells :
    ((2 : Nibble) ≠ 0 ∧ (State.reset.setI 0xFFF).i.toNat + (2 : Nibble).toNat - 1 > 0xFFF) ∧
    ((1 : Nibble) = 0 ∨ (State.reset.setI 0xFFF).i.toNat + (1 : Nibble).toNat - 1 ≤ 0xFFF) ∧
    ((0 : Nibble) = 0 ∨ (State.reset.setI 0xFFFF).i.toNat + (0 : Nibble).toNat - 1 ≤ 0xFFF) := by decide

/-- Both outcomes of the collision clauses: a draw over an on cell, and a draw on a clear screen. -/
theorem witness_DrawFlipsCoveredCells_collision :
    let s : State := { ((withWord 0xD011).setI 0x300).memWrite 0x300 0x80 with
      fb := Framebuffer.toggle State.reset.fb 0 }
    (s.fb.cell 0 = true ∧ (stepState s).fb.cell 0 = false) ∧
    ∀ idx : Nat, State.reset.fb.cell idx = true → (stepState (((withWord 0xD011).setI 0x300))).fb.cell idx = true :=
  ⟨by decide, fun idx h => by
    rw [show State.reset.fb = Framebuffer.clear from rfl, Framebuffer.cell_clear] at h; cases h⟩

theorem witness_DrawTwiceErases : (0 : Nibble) ≠ 0xF#4 ∧ (1 : Nibble) ≠ 0xF#4 ∧
    ((5 : Nibble) = 0 ∨ (State.reset.setI 0x050).i.toNat + (5 : Nibble).toNat - 1 ≤ 0xFFF) ∧
    ∀ idx : Nat, (State.reset.setI 0x050).fb.cell idx = false :=
  ⟨by decide, by decide, by decide, Framebuffer.cell_clear⟩

/-- A covered cell: the first bit of a one-row sprite at origin (0, 0). -/
theorem witness_Covered : Covered ((State.reset.setI 0x300).memWrite 0x300 0x80) 0 0 1 0 :=
  ⟨0, by decide, 0, by decide, by decide, by decide⟩

/-- V0 = 0x10 names no key, V0 = 0x0F names the last. -/
theorem witness_KeySkips : ((State.reset.setV 0 0x10).getV 0).toNat > 0x0F ∧
    ((State.reset.setV 0 0x0F).getV 0).toNat = (0xF : Nibble).toNat := by decide

/-- Waiting with no key held, and with keys 7 and F held. -/
theorem witness_KeyWaitResolves :
    let s := State.reset.beginWait 3
    let t := (s.keyEvent 0xF true).keyEvent 7 true
    (s.run = .running ∧ s.await = true ∧ ∀ k : Nibble, s.getKey k = false) ∧
    t.run = .running ∧ t.await = true ∧ t.getKey 7 = true ∧
      ∀ j : Nibble, j.toNat < (7 : Nibble).toNat → t.getKey j = false := by decide

theorem witness_StepRunsDecodedInstruction : (withWord 0x6A42).Ready ∧
    (withWord 0x6A42).fetch.toOption = some 0x6A42 ∧ decodeWord 0x6A42 = .ok (.ldImm 0xA 0x42) := by decide

/-- The last PC that fetches, and the first that does not. -/
theorem witness_FetchIsBigEndian : (State.reset.setPc 0xFFE).pc.toNat + 1 ≤ 0xFFF ∧
    (State.reset.setPc 0xFFF).Ready ∧ (State.reset.setPc 0xFFF).pc.toNat + 1 > 0xFFF := by decide

/-- An unknown word and a SYS word. -/
theorem witness_DecodeErrorIsNonFatal :
    ((withWord 0x5121).Ready ∧ (withWord 0x5121).fetch.toOption = some 0x5121 ∧
      decodeWord 0x5121 = .error (.unknown 0x5121)) ∧
    (withWord 0x0234).Ready ∧ (withWord 0x0234).fetch.toOption = some 0x0234 ∧
      decodeWord 0x0234 = .ok (.sys 0x234) := by decide

theorem witness_FatalErrorsArePrecise : (withWord 0x00EE).run = .running ∧
    step (withWord 0x00EE) = .next (stepState (withWord 0x00EE)) ∧ (stepState (withWord 0x00EE)).run = .halted :=
  ⟨by decide, rfl, by decide⟩

theorem witness_OnlyResetLeavesHalted : (State.reset.raiseFatal .stackOverflow).run = .halted ∧
    Transaction.tick ≠ .reset := by decide

/-- A step that paints, and one that changes CHANGED. -/
theorem witness_WhoPaintsAndWhoPressesKeys :
    step (withWord 0x00E0) = .next (stepState (withWord 0x00E0)) ∧
    (stepState (withWord 0x00E0)).changed ≠ (withWord 0x00E0).changed ∧
    (stepState (stepState (withWord 0x00E0))).changed = true :=
  ⟨rfl, by decide, by decide⟩

/-- A CALL moves SP and changes the stack, a RET moves SP. -/
theorem witness_OnlyCallAndRetTouchStack :
    let s : State := { State.reset with sp := 1 }
    (∃ t, exec (.call 0x300) s = .next t ∧ t.sp ≠ s.sp ∧ t.stack ≠ s.stack) ∧
    (∃ t, exec .ret s = .next t ∧ t.sp ≠ s.sp) ∧ (0 : Fin Config.stackDepth).val ≠ s.sp.val :=
  ⟨⟨_, rfl, by decide, by decide⟩, ⟨_, rfl, by decide⟩, by decide⟩

/-- Each of I, DT, ST and memory is changed by an instruction named for it. -/
theorem witness_WritersOfIndexTimersMemory :
    let s := (State.reset.setV 1 7).setI 0x300
    (∃ t, exec (.addI 1) s = .next t ∧ t.i ≠ s.i) ∧ (∃ t, exec (.ldDtVx 1) s = .next t ∧ t.dt ≠ s.dt) ∧
    (∃ t, exec (.ldStVx 1) s = .next t ∧ t.st ≠ s.st) ∧ ∃ t, exec (.ldMemVx 1) s = .next t ∧ t.mem ≠ s.mem :=
  ⟨⟨_, rfl, by decide⟩, ⟨_, rfl, by decide⟩, ⟨_, rfl, by decide⟩, ⟨_, rfl, by decide⟩⟩

theorem witness_WritersOfVF :
    let s := (State.reset.setV 0 0xFF).setV 1 1
    ∃ t, exec (.addReg 0 1) s = .next t ∧ t.getV 0xF#4 ≠ s.getV 0xF#4 := ⟨_, rfl, by decide⟩

theorem witness_HostOnlyStateIsNotRead : step (withWord 0x6A42) = .next (stepState (withWord 0x6A42)) := rfl

/-- SP = 1: slot 0 is kept, slot 1 is stale and differs. -/
theorem witness_StaleSlotsAreNotRead :
    let s : State := { withWord 0x00EE with sp := 1 }
    let stale := s.stack.set 1 0x0BAD
    step s = .next (stepState s) ∧ (∀ k : Fin Config.stackDepth, k.val < s.sp.val → stale[k] = s.stack[k]) ∧
      stale ≠ s.stack := ⟨rfl, by decide, by decide⟩

/-- The invariants and a step from a state that holds each: a store, a jump past the end, a fatal error. -/
theorem witness_StepKeepsMemoryCanonical :
    let s := ((withWord 0xF055).setI 0x300).setV 0 7
    s.MemCanonical ∧ step s = .next (stepState s) := ⟨by decide, rfl⟩

theorem witness_StepKeepsPcBounded :
    let s := (withWord 0xBFFF).setV 0 0xFF
    s.PcBounded ∧ step s = .next (stepState s) := ⟨by decide, rfl⟩

theorem witness_StepKeepsErrRecorded :
    (withWord 0x00EE).ErrRecorded ∧ step (withWord 0x00EE) = .next (stepState (withWord 0x00EE)) :=
  ⟨⟨by decide, trivial⟩, rfl⟩

/-- A reached state, and a state that meets the three invariants with every bound of PcBounded tight. -/
theorem witness_ReachableStatesAreSound : Reachable (transact (.loadRom [0x12, 0x00]) State.reset) ∧
    (let s : State := { State.reset with pc := 0x10FE, sp := 16, stack := Vector.replicate 16 0x1000 }
     s.MemCanonical ∧ s.PcBounded ∧ s.ErrRecorded) :=
  ⟨.transact _ _ .reset, by decide, by decide, by decide, trivial⟩

theorem witness_DecodeOfEncode : WellFormed (.drw 1 2 5) = true ∧ WellFormed (.sys 0xFFF) = true := by decide

theorem witness_EncodeOfDecode : decodeWord 0xD125 = .ok (.drw 1 2 5) := by decide

theorem witness_PlacedWordRunsNext : State.reset.MemCanonical ∧ decodeWord 0xD125 = .ok (.drw 1 2 5) := by decide

theorem witness_ReadAfterWrite : State.reset.MemCanonical ∧ 0x000 ≤ 0xFFF ∧ 0xFFF ≤ 0xFFF := by decide

/-- The shortest image that is rejected, and the longest that is not. -/
theorem witness_LoadRomCopiesOrRejects : (List.replicate 3585 (0xAA : Byte)).length > 3584 ∧
    (List.replicate 3584 (0xAA : Byte)).length ≤ 3584 ∧ State.reset.MemCanonical :=
  ⟨by rw [List.length_replicate]; decide, by rw [List.length_replicate], by decide⟩

theorem witness_HostReadsAndEvents : (3 : Nibble) ≠ 4 := by decide

end Sys2Proof.Tests
end

/-! # Proofs of the family 10_state.md: who may change what, noninterference, the step invariants -/

namespace Sys2Proof.Machine

/-! ## What consecutive stores leave unchanged -/

section StoreBytesFrame

variable (bytes : List Byte) (a : Nat) (s : State)

theorem State.storeBytes_eq_set_mem : s.storeBytes bytes a = { s with mem := (s.storeBytes bytes a).mem } := by
  obtain ⟨m, h⟩ := State.storeBytes_eq bytes a s
  rw [h]

@[simp] theorem State.storeBytes_v : (s.storeBytes bytes a).v = s.v := by
  rw [State.storeBytes_eq_set_mem]

@[simp] theorem State.storeBytes_i : (s.storeBytes bytes a).i = s.i := by
  rw [State.storeBytes_eq_set_mem]

@[simp] theorem State.storeBytes_sp : (s.storeBytes bytes a).sp = s.sp := by
  rw [State.storeBytes_eq_set_mem]

@[simp] theorem State.storeBytes_stack : (s.storeBytes bytes a).stack = s.stack := by
  rw [State.storeBytes_eq_set_mem]

@[simp] theorem State.storeBytes_dt : (s.storeBytes bytes a).dt = s.dt := by
  rw [State.storeBytes_eq_set_mem]

@[simp] theorem State.storeBytes_st : (s.storeBytes bytes a).st = s.st := by
  rw [State.storeBytes_eq_set_mem]

@[simp] theorem State.storeBytes_fb : (s.storeBytes bytes a).fb = s.fb := by
  rw [State.storeBytes_eq_set_mem]

@[simp] theorem State.storeBytes_changed : (s.storeBytes bytes a).changed = s.changed := by
  rw [State.storeBytes_eq_set_mem]

@[simp] theorem State.storeBytes_key : (s.storeBytes bytes a).key = s.key := by
  rw [State.storeBytes_eq_set_mem]

@[simp] theorem State.storeBytes_await : (s.storeBytes bytes a).await = s.await := by
  rw [State.storeBytes_eq_set_mem]

@[simp] theorem State.storeBytes_run : (s.storeBytes bytes a).run = s.run := by
  rw [State.storeBytes_eq_set_mem]

@[simp] theorem State.storeBytes_err : (s.storeBytes bytes a).err = s.err := by
  rw [State.storeBytes_eq_set_mem]

end StoreBytesFrame

/-! ## The canonical form of memory -/

/-- Only an effect that stores touches memory, and it stores inside the 4096 bytes. -/
theorem Effect.memCanonical {i : Instr} {s t : State} (he : Effect s i t) (hs : s.MemCanonical) : t.MemCanonical := by
  cases he with
  | store bytes a _ hr => exact State.storeBytes_memCanonical bytes a s hs hr
  | fatal | pass | jump | regs | index | paint | delay | sound | wait | call | ret => exact hs

/-- Settles O46: of the cases of a Step only an executed instruction can touch memory. -/
theorem stepKeepsMemoryCanonical : Obligations.StepKeepsMemoryCanonical := by
  intro s t hs h
  cases step_cases h with
  | still | resolve | fetchFault | unknown => exact hs
  | execute i w _ _ _ _ he => exact he.memCanonical hs

/-! ## The bound on PC -/

/-- After a fetch in range, PC + 2 does not wrap. -/
theorem State.toNat_pc_add_two {s : State} (h : s.pc.toNat + 1 ≤ 0xFFF) : (s.pc + 2).toNat = s.pc.toNat + 2 := by
  bv_omega

/-- The bounds need only a bound on the new PC where the stack is as before and no key wait is pending. -/
theorem State.PcBounded.of_same_stack {s t : State} (hs : s.PcBounded) (hsp : t.sp = s.sp) (hstack : t.stack = s.stack)
    (hawait : t.await = false) (hpc : t.pc.toNat ≤ 0x10FE) : t.PcBounded := by
  obtain ⟨-, hlive, -⟩ := hs
  refine ⟨hpc, ?_, by simp [hawait]⟩
  rw [hsp, hstack]
  exact hlive

/-- An instruction fetched in range keeps the bounds: JP V0 gives the largest PC, CALL saves at most 0x1000, and RET
takes what a CALL saved. -/
theorem Effect.pcBounded {i : Instr} {s t : State} (he : Effect s i t) (hs : s.PcBounded)
    (hpc : s.pc.toNat + 1 ≤ 0xFFF) (hawait : s.await = false) : t.PcBounded := by
  have hnext := s.toNat_pc_add_two hpc
  cases he with
  | fatal => exact hs
  | pass pc h =>
    refine hs.of_same_stack rfl rfl hawait (show pc.toNat ≤ _ from ?_)
    rcases h with rfl | rfl
    · omega
    · bv_omega
  | jump pc h => exact hs.of_same_stack rfl rfl hawait h
  | regs | index | paint | delay | sound =>
    exact hs.of_same_stack rfl rfl hawait (show (s.pc + 2).toNat ≤ _ by omega)
  | store bytes a =>
    exact hs.of_same_stack (by simp) (by simp) (by simpa using hawait) (show (s.pc + 2).toNat ≤ _ by omega)
  | wait =>
    obtain ⟨hbound, hlive, -⟩ := hs
    exact ⟨hbound, hlive, fun _ => show s.pc.toNat ≤ _ by omega⟩
  | @call nnn h =>
    obtain ⟨-, hlive, -⟩ := hs
    have hn := nnn.isLt
    refine ⟨?_, fun k hk => ?_, fun ha => absurd (hawait.symm.trans ha) (by decide)⟩
    · simp only [State.setPc_pc, addrWord, BitVec.toNat_setWidth]; omega
    · simp only [State.setPc_sp] at hk
      simp only [State.setPc_stack, Vector.getElem_set]
      split_ifs with hslot
      · omega
      · exact hlive k (by omega)
  | ret hlt h0 =>
    obtain ⟨-, hlive, -⟩ := hs
    have htop : s.stack[s.sp.val - 1].toNat ≤ 0x1000 := hlive ⟨s.sp.val - 1, hlt⟩ (by simp only; omega)
    refine ⟨?_, fun k hk => hlive k ?_, fun ha => absurd (hawait.symm.trans ha) (by decide)⟩
    · simp only [State.setPc_pc]; omega
    · simp only [State.setPc_sp] at hk; omega

/-- Settles O47: an executed instruction was fetched at 0xFFE or below, and so was a pending FX0A. -/
theorem stepKeepsPcBounded : Obligations.StepKeepsPcBounded := by
  intro s t hs h
  cases step_cases h with
  | still | fetchFault => exact hs
  | resolve k _ hawait _ =>
    have ⟨_, _, hwait⟩ := hs
    have hpc := hwait hawait
    have hnext := s.toNat_pc_add_two (by omega)
    exact hs.of_same_stack rfl rfl rfl (show (s.pc + 2).toNat ≤ _ by omega)
  | unknown hready hpc =>
    have hnext := s.toNat_pc_add_two hpc
    exact hs.of_same_stack rfl rfl hready.2 (show (s.pc + 2).toNat ≤ _ by omega)
  | execute i w hready hf _ _ he => exact he.pcBounded hs (State.pc_of_fetch hf) hready.2

/-! ## RUN and ERR -/

/-- An instruction takes a fatal error, or leaves RUN and ERR alone. -/
theorem Effect.fatal_or_same_run {i : Instr} {s t : State} (he : Effect s i t) :
    (∃ e, RaisedIn s e ∧ t = s.raiseFatal e) ∨ (t.run = s.run ∧ t.err = s.err) := by
  cases he with
  | fatal e hr => exact Or.inl ⟨e, hr, rfl⟩
  | store => exact Or.inr (by simp)
  | pass | jump | regs | index | paint | delay | sound | wait | call | ret => exact Or.inr ⟨rfl, rfl⟩

/-- Taking an error in a state that R98 gives for it records it soundly. -/
theorem State.errRecorded_raiseFatal {s : State} {e : FatalError} (hr : RaisedIn s e) :
    (s.raiseFatal e).ErrRecorded := by
  refine ⟨by simp, ?_⟩
  cases e <;> exact hr

/-- In RUNNING nothing is recorded, so SP may change freely. -/
theorem State.ErrRecorded.of_running {s t : State} (hs : s.ErrRecorded) (hrun : s.run = .running)
    (hrun' : t.run = s.run) (herr' : t.err = s.err) : t.ErrRecorded := by
  have hnone : s.err = none := by
    obtain ⟨hiff, -⟩ := hs
    simpa [hrun] using hiff
  unfold State.ErrRecorded
  rw [hrun', herr', hrun, hnone]
  simp

/-- Settles O48: a running core takes an error as R98 lists it or keeps RUN and ERR. -/
theorem stepKeepsErrRecorded : Obligations.StepKeepsErrRecorded := by
  intro s t hs h
  cases step_cases h with
  | still => exact hs
  | resolve k hrun => exact hs.of_running hrun rfl rfl
  | fetchFault e _ hr => exact State.errRecorded_raiseFatal hr
  | unknown hready => exact hs.of_running hready.1 rfl rfl
  | execute i w hready _ _ _ he =>
    rcases he.fatal_or_same_run with ⟨e, hr, rfl⟩ | ⟨hrun', herr'⟩
    · exact State.errRecorded_raiseFatal hr
    · exact hs.of_running hready.1 hrun' herr'

/-- Settles O49: the canonical form is the law `State.reset_memCanonical`; the other two are facts about one state. -/
theorem invariantsHoldAtReset : Obligations.InvariantsHoldAtReset :=
  ⟨State.reset_memCanonical, by decide, by decide, trivial⟩

/-! ## Who may change what -/

/-- No instruction writes a key. -/
theorem Effect.key_eq {i : Instr} {s t : State} (he : Effect s i t) : t.key = s.key := by
  cases he with
  | store => simp
  | fatal | pass | jump | regs | index | paint | delay | sound | wait | call | ret => rfl

/-- An instruction leaves FB and CHANGED alone, or is CLS or DRW and sets CHANGED. -/
theorem Effect.same_screen_or_paints {i : Instr} {s t : State} (he : Effect s i t) :
    (t.fb = s.fb ∧ t.changed = s.changed) ∨ ((i = .cls ∨ ∃ x y n, i = .drw x y n) ∧ t.changed = true) := by
  cases he with
  | paint v fb hi => exact Or.inr ⟨hi, rfl⟩
  | store => exact Or.inl (by simp)
  | fatal | pass | jump | regs | index | delay | sound | wait | call | ret => exact Or.inl ⟨rfl, rfl⟩

/-- Settles O40: only an executed CLS or DRW touches FB or CHANGED, and it sets CHANGED. -/
theorem whoPaintsAndWhoPressesKeys : Obligations.WhoPaintsAndWhoPressesKeys := by
  intro s t h
  cases step_cases h with
  | still | resolve | fetchFault | unknown =>
    exact ⟨rfl, fun hdiff => hdiff.elim (absurd rfl) (absurd rfl), id⟩
  | execute i w _ hf hd _ he =>
    refine ⟨he.key_eq, fun hdiff => ?_, fun hc => ?_⟩
    · rcases he.same_screen_or_paints with ⟨hfb, hch⟩ | ⟨hi, -⟩
      · exact hdiff.elim (absurd hfb) (absurd hch)
      · exact ⟨w, i, hf, hd, hi⟩
    · rcases he.same_screen_or_paints with ⟨-, hch⟩ | ⟨-, hset⟩
      · exact hch.trans hc
      · exact hset

/-- Settles O41: of the effects, CALL's writes the slot at SP, RET's writes SP alone, and the others neither. -/
theorem onlyCallAndRetTouchStack : Obligations.OnlyCallAndRetTouchStack := by
  intro i s t h
  cases exec_effect h with
  | @call nnn hl =>
    refine ⟨fun _ => Or.inr ⟨nnn, rfl⟩, fun _ => ⟨nnn, rfl⟩, fun k hk => ?_⟩
    exact Vector.getElem_set_ne hl k.isLt (Ne.symm hk)
  | ret => exact ⟨fun _ => Or.inl rfl, absurd rfl, fun _ _ => rfl⟩
  | store => simp
  | fatal | pass | jump | regs | index | paint | delay | sound | wait =>
    exact ⟨fun hdiff => hdiff.elim (absurd rfl) (absurd rfl), absurd rfl, fun _ _ => rfl⟩

/-- Settles O42: each of the four has one effect that writes it. -/
theorem writersOfIndexTimersMemory : Obligations.WritersOfIndexTimersMemory := by
  intro i s t h
  cases exec_effect h with
  | index w hi => exact ⟨fun _ => hi, absurd rfl, absurd rfl, absurd rfl⟩
  | store bytes a hi => exact ⟨by simp, by simp, by simp, fun _ => hi⟩
  | @delay x => exact ⟨absurd rfl, fun _ => ⟨x, rfl⟩, absurd rfl, absurd rfl⟩
  | @sound x => exact ⟨absurd rfl, absurd rfl, fun _ => ⟨x, rfl⟩, absurd rfl⟩
  | fatal | pass | jump | regs | paint | wait | call | ret => exact ⟨absurd rfl, absurd rfl, absurd rfl, absurd rfl⟩

/-! ### The flag register -/

/-- An instruction of the form of `finish` writes its destination and no other register. -/
theorem eq_of_finish_getV_ne {x y : Nibble} {b : Byte} {s t : State} (h : finish x b s = .next t)
    (hne : t.getV y ≠ s.getV y) : x = y := by
  cases h
  by_contra hxy
  exact hne (by simp [Ne.symm hxy])

/-- An access leaves a register alone where its completion does. -/
theorem accessing_getV {a n : Nat} {s done t : State} {r : Nibble} (h : accessing a n s done = .next t)
    (hd : done.getV r = s.getV r) : t.getV r = s.getV r := by
  rcases accessing_cases a n s done with ⟨-, h'⟩ | ⟨-, h'⟩ <;> rw [h'] at h <;> cases h
  · exact hd
  · rfl

theorem skipOnKey_getV {level : Bool} {x r : Nibble} {s t : State} (h : skipOnKey level x s = .next t) :
    t.getV r = s.getV r := by
  unfold skipOnKey at h
  rcases keyAt_cases (s.getV x) s with ⟨-, hk⟩ | ⟨-, hk⟩ <;> rw [hk] at h <;> cases h <;> simp

theorem execCall_getV {nnn : Addr} {r : Nibble} {s t : State} (h : execCall nnn s = .next t) :
    t.getV r = s.getV r := by
  unfold execCall at h
  rcases s.push_cases (s.pc + 2) with ⟨-, hp⟩ | ⟨_, hp⟩ <;> rw [hp] at h <;> cases h <;> rfl

theorem execRet_getV {r : Nibble} {s t : State} (h : execRet s = .next t) : t.getV r = s.getV r := by
  unfold execRet at h
  rcases s.pop_cases with ⟨-, hp⟩ | ⟨_, _, hp⟩ <;> rw [hp] at h <;> cases h <;> rfl

@[simp] theorem State.storeBytes_getV (bytes : List Byte) (a : Nat) (s : State) (r : Nibble) :
    (s.storeBytes bytes a).getV r = s.getV r := by
  simp only [State.getV, State.storeBytes_v]

/-- FX65 writes V0..Vx: it writes VF only with x = F. -/
theorem eq_of_execLdVxMem_vf_ne {x : Nibble} {s t : State} (h : execLdVxMem x s = .next t)
    (hne : t.getV 0xF#4 ≠ s.getV 0xF#4) : x = 0xF#4 := by
  by_contra hx
  have hlt : ¬(0xF#4).toNat < x.toNat + 1 := by bv_omega
  refine hne (accessing_getV h ?_)
  have := x.isLt
  rw [State.advance_eq, State.setPc_getV, State.getV_loadRegs _ _ (by omega), if_neg hlt]

/-- Settles O43: by instruction, VF is a flag, the destination of the instruction, or left alone. -/
theorem writersOfVF : Obligations.WritersOfVF := by
  intro i s t h hne
  cases i with
  | addReg x y | subReg x y | shr x y | subn x y | shl x y => exact Or.inl ⟨x, y, by simp⟩
  | drw x y n => exact Or.inr (Or.inl ⟨x, y, n, rfl⟩)
  | ldImm x nn | addImm x nn | rnd x nn =>
    obtain rfl := eq_of_finish_getV_ne h hne
    exact Or.inr (Or.inr (Or.inl ⟨nn, by simp⟩))
  | ldReg x y | orReg x y | andReg x y | xorReg x y =>
    obtain rfl := eq_of_finish_getV_ne h hne
    exact Or.inr (Or.inr (Or.inr (Or.inl ⟨y, by simp⟩)))
  | ldVxDt x =>
    obtain rfl := eq_of_finish_getV_ne h hne
    simp
  | ldVxMem x =>
    obtain rfl := eq_of_execLdVxMem_vf_ne h hne
    simp
  | sys | cls | jp | jpV0 | ldI | addI | ldF | ldVxK | ldDtVx | ldStVx => cases h; exact absurd rfl hne
  | seImm | sneImm | seReg | sneReg => cases h; exact absurd (by simp) hne
  | skp | sknp => exact absurd (skipOnKey_getV h) hne
  | call => exact absurd (execCall_getV h) hne
  | ret => exact absurd (execRet_getV h) hne
  | ldB | ldMemVx => exact absurd (accessing_getV h (by simp)) hne

/-! ## Noninterference: ST, CHANGED, ERR and the stale stack slots

Both statements compare a state with the same state under other values of elements that a Step may write but does not
read. One simulation covers all four elements: a Step from the replaced state answers the same next state, under
values that are the real ones wherever the replacing values were. -/

/-- Values for the elements of the state that no rule reads: ST, CHANGED, ERR and, at and above SP, STACK. -/
structure Unread where
  st : Byte
  changed : Bool
  err : Option FatalError
  stack : Vector Word Config.stackDepth

/-- The state with its unread elements replaced. -/
def State.withUnread (o : Unread) (s : State) : State :=
  { s with st := o.st, changed := o.changed, err := o.err, stack := o.stack }

/-- The live stack slots, those below SP, hold what the state's do. -/
def Unread.Live (o : Unread) (s : State) : Prop :=
  ∀ k : Fin Config.stackDepth, k.val < s.sp.val → o.stack[k] = s.stack[k]

/-- The replacing values before a Step from `s` and those after it at `t`: an element that was not replaced is not
replaced after, and the live slots agree. -/
structure Unread.Follows (o : Unread) (s : State) (o' : Unread) (t : State) : Prop where
  st : o.st = s.st → o'.st = t.st
  changed : o.changed = s.changed → o'.changed = t.changed
  err : o.err = s.err → o'.err = t.err
  stack : o.stack = s.stack → o'.stack = t.stack
  live : o'.Live t

/-- The answer `r`, from `s` under `o`, is `t` under values that follow. -/
def Mirrors (o : Unread) (s : State) (r : Result) (t : State) : Prop :=
  ∃ o', r = .next (t.withUnread o') ∧ o.Follows s o' t

section StackOperations

variable {s : State} {w : Word}

theorem State.push_of_lt (h : s.sp.val < Config.stackDepth) :
    s.push w = .ok { s with stack := s.stack.set s.sp.val w h, sp := ⟨s.sp.val + 1, Nat.succ_lt_succ h⟩ } :=
  dif_pos h

theorem State.push_of_full (h : s.sp.val = Config.stackDepth) : s.push w = .error .stackOverflow :=
  dif_neg (Nat.not_lt.2 h.ge)

theorem State.pop_of_empty (h : s.sp.val = 0) : s.pop = .error .stackUnderflow := dif_pos h

theorem State.pop_of_ne_zero (h : s.sp.val ≠ 0) (hlt : s.sp.val - 1 < Config.stackDepth) :
    s.pop = .ok (s.stack[s.sp.val - 1], { s with sp := ⟨s.sp.val - 1, Nat.lt_succ_of_lt hlt⟩ }) := dif_neg h

end StackOperations

section Noninterference

variable {o : Unread} {s t : State}

/-- A state change that leaves the unread elements and SP alone. -/
theorem Mirrors.of_untouched (hl : o.Live s) {r : Result} (hr : r = .next (t.withUnread o)) (hst : t.st = s.st)
    (hchanged : t.changed = s.changed) (herr : t.err = s.err) (hstack : t.stack = s.stack) (hsp : t.sp = s.sp) :
    Mirrors o s r t := by
  refine ⟨o, hr, fun h => h.trans hst.symm, fun h => h.trans hchanged.symm, fun h => h.trans herr.symm,
    fun h => h.trans hstack.symm, ?_⟩
  unfold Unread.Live
  rw [hstack, hsp]
  exact hl

/-- A fatal error sets ERR whatever ERR held. -/
theorem mirrors_raiseFatal (hl : o.Live s) (e : FatalError) :
    Mirrors o s (.next ((s.withUnread o).raiseFatal e)) (s.raiseFatal e) :=
  ⟨{ o with err := some e }, rfl, id, id, fun _ => rfl, id, hl⟩

/-- The two painters set CHANGED whatever CHANGED held. -/
theorem mirrors_paint (hl : o.Live s) (v : Vector Byte 16) (fb : Framebuffer) (pc : Word) :
    Mirrors o s (.next { s.withUnread o with v := v, fb := fb, changed := true, pc := pc })
      { s with v := v, fb := fb, changed := true, pc := pc } :=
  ⟨{ o with changed := true }, rfl, id, fun _ => rfl, id, id, hl⟩

theorem mirrors_setPc (hl : o.Live s) (pc : Word) : Mirrors o s (.next ((s.withUnread o).setPc pc)) (s.setPc pc) :=
  .of_untouched hl rfl rfl rfl rfl rfl rfl

theorem mirrors_accessing (hl : o.Live s) {a n : Nat} {done doneO : State} (h : accessing a n s done = .next t)
    (hd : Mirrors o s (.next doneO) done) : Mirrors o s (accessing a n (s.withUnread o) doneO) t := by
  unfold accessing at h ⊢
  cases hc : checkRange a n with
  | none => rw [hc] at h; cases h; exact hd
  | some e => rw [hc] at h; cases h; exact mirrors_raiseFatal hl e

theorem mirrors_skipIf (hl : o.Live s) {c : Bool} (h : Host.Outcome.next (s.skipIf c) = (.next t : Result)) :
    Mirrors o s (.next ((s.withUnread o).skipIf c)) t := by
  cases h
  rw [State.skipIf_eq, State.skipIf_eq]
  exact mirrors_setPc hl _

theorem mirrors_skipOnKey (hl : o.Live s) {level : Bool} {x : Nibble} (h : skipOnKey level x s = .next t) :
    Mirrors o s (skipOnKey level x (s.withUnread o)) t := by
  have hk : keyAt ((s.withUnread o).getV x) (s.withUnread o) = keyAt (s.getV x) s := rfl
  unfold skipOnKey at h ⊢
  rw [hk]
  cases hkey : keyAt (s.getV x) s with
  | error e => rw [hkey] at h; cases h; exact mirrors_raiseFatal hl e
  | ok k => rw [hkey] at h; exact mirrors_skipIf hl h

/-- CALL writes the slot at SP in both stacks, so the slots below the new SP agree. -/
theorem mirrors_execCall (hl : o.Live s) {nnn : Addr} (h : execCall nnn s = .next t) :
    Mirrors o s (execCall nnn (s.withUnread o)) t := by
  unfold execCall at h ⊢
  rcases s.push_cases (s.pc + 2) with ⟨hfull, hp⟩ | ⟨hlt, hp⟩
  · have hpO : (s.withUnread o).push ((s.withUnread o).pc + 2) = .error .stackOverflow :=
      State.push_of_full hfull
    rw [hp] at h; rw [hpO]; cases h
    exact mirrors_raiseFatal hl _
  · rw [hp] at h; rw [State.push_of_lt (s := s.withUnread o) hlt]; cases h
    refine ⟨{ o with stack := o.stack.set s.sp.val (s.pc + 2) hlt }, rfl, id, id, id,
      fun he => congrArg (Vector.set · s.sp.val (s.pc + 2) hlt) he, fun k hk => ?_⟩
    have hk : k.val < s.sp.val + 1 := hk
    show (o.stack.set s.sp.val (s.pc + 2) hlt)[k.val] = (s.stack.set s.sp.val (s.pc + 2) hlt)[k.val]
    rw [Vector.getElem_set, Vector.getElem_set]
    split_ifs with hslot
    · rfl
    · exact hl k (by omega)

/-- RET reads the slot below SP, which is live. -/
theorem mirrors_execRet (hl : o.Live s) (h : execRet s = .next t) : Mirrors o s (execRet (s.withUnread o)) t := by
  unfold execRet at h ⊢
  rcases s.pop_cases with ⟨hempty, hp⟩ | ⟨h0, hlt, hp⟩
  · rw [hp] at h; rw [State.pop_of_empty (s := s.withUnread o) hempty]; cases h
    exact mirrors_raiseFatal hl _
  · have htop : o.stack[s.sp.val - 1] = s.stack[s.sp.val - 1] := hl ⟨s.sp.val - 1, hlt⟩ (by simp only; omega)
    rw [hp] at h; rw [State.pop_of_ne_zero (s := s.withUnread o) h0 hlt]; cases h
    refine ⟨o, ?_, id, id, id, id, fun k hk => hl k (Nat.lt_of_lt_of_le hk (Nat.sub_le _ _))⟩
    rw [← htop]
    rfl

theorem State.storeBytes_withUnread (bytes : List Byte) (a : Nat) (s : State) :
    (s.withUnread o).storeBytes bytes a = (s.storeBytes bytes a).withUnread o := by
  induction bytes generalizing a s with
  | nil => rfl
  | cons b rest ih => exact ih (a + 1) (s.memWrite a b)

theorem State.loadRegs_withUnread (a n : Nat) : (s.withUnread o).loadRegs a n = (s.loadRegs a n).withUnread o := by
  induction n with
  | zero => rfl
  | succ k ih => rw [State.loadRegs, ih]; rfl

theorem State.drawRows_withUnread (x0 y0 : Byte) (n : Nat) :
    (s.withUnread o).drawRows x0 y0 n = s.drawRows x0 y0 n := by
  induction n with
  | zero => rfl
  | succ row ih => rw [State.drawRows, ih]; rfl

theorem mirrors_storeBytes (hl : o.Live s) (bytes : List Byte) (a : Nat) :
    Mirrors o s (.next ((s.withUnread o).storeBytes bytes a).advance) (s.storeBytes bytes a).advance := by
  rw [State.storeBytes_withUnread]
  exact .of_untouched hl rfl (by simp) (by simp) (by simp) (by simp) (by simp)

theorem mirrors_loadRegs (hl : o.Live s) (a n : Nat) :
    Mirrors o s (.next ((s.withUnread o).loadRegs a n).advance) (s.loadRegs a n).advance := by
  rw [State.loadRegs_withUnread]
  obtain ⟨v, hv⟩ := State.loadRegs_eq a n s
  rw [hv]
  exact .of_untouched hl rfl rfl rfl rfl rfl rfl

theorem mirrors_drawSprite (hl : o.Live s) (x y n : Nibble) :
    Mirrors o s (.next ((s.withUnread o).drawSprite x y n)) (s.drawSprite x y n) := by
  have hrows := State.drawRows_withUnread (s := s) (o := o) (s.getV x) (s.getV y) n.toNat
  have hdraw : (s.withUnread o).drawSprite x y n =
      ((((s.withUnread o).paint (s.drawRows (s.getV x) (s.getV y) n.toNat).fb).setFlag
        (flagOf (s.drawRows (s.getV x) (s.getV y) n.toNat).collision)).advance) := by
    rw [← hrows]; rfl
  rw [hdraw]
  exact mirrors_paint hl _ _ _

/-- Every instruction, by the operations its meaning is written with. -/
theorem mirrors_exec (hl : o.Live s) {i : Instr} (h : exec i s = .next t) :
    Mirrors o s (exec i (s.withUnread o)) t := by
  cases i with
  | sys | jp | jpV0 => cases h; exact mirrors_setPc hl _
  | seImm | sneImm | seReg | sneReg => exact mirrors_skipIf hl h
  | skp | sknp => exact mirrors_skipOnKey hl h
  | ldImm | addImm | ldReg | orReg | andReg | xorReg | addReg | subReg | subn | rnd | ldVxDt | ldI | addI | ldF
  | ldDtVx | ldVxK | shr | shl => cases h; exact .of_untouched hl rfl rfl rfl rfl rfl rfl
  | ldStVx x => cases h; exact ⟨{ o with st := s.getV x }, rfl, fun _ => rfl, id, id, id, hl⟩
  | cls => cases h; exact mirrors_paint hl _ _ _
  | drw x y n =>
    have hd := mirrors_drawSprite hl x y n
    simp only [exec, execDrw] at h ⊢
    split_ifs at h ⊢
    · cases h; exact hd
    · exact mirrors_accessing hl h hd
  | call => exact mirrors_execCall hl h
  | ret => exact mirrors_execRet hl h
  | ldB | ldMemVx => exact mirrors_accessing hl h (mirrors_storeBytes hl _ _)
  | ldVxMem => exact mirrors_accessing hl h (mirrors_loadRegs hl _ _)

/-- What a Step does is chosen without the unread elements. -/
theorem State.nextAction_withUnread (o : Unread) (s : State) : (s.withUnread o).nextAction = s.nextAction := rfl

/-- The simulation for a whole Step. -/
theorem mirrors_step (hl : o.Live s) (h : step s = .next t) : Mirrors o s (step (s.withUnread o)) t := by
  unfold step at h ⊢
  rw [State.nextAction_withUnread]
  cases ha : s.nextAction with
  | halted | waiting | resolve | unknown =>
    rw [ha] at h; cases h
    exact .of_untouched hl rfl rfl rfl rfl rfl rfl
  | fetchFault e => rw [ha] at h; cases h; exact mirrors_raiseFatal hl e
  | execute i w => rw [ha] at h; exact mirrors_exec hl h

end Noninterference

/-- Settles O44: the simulation with the stack left as it is. -/
theorem hostOnlyStateIsNotRead : Obligations.HostOnlyStateIsNotRead := by
  intro s t b c e h
  obtain ⟨o', hu, hfollows⟩ := mirrors_step (o := ⟨b, c, e, s.stack⟩) (fun _ _ => rfl) h
  refine ⟨t.withUnread o', hu, ?_⟩
  have hstack : o'.stack = t.stack := hfollows.stack rfl
  simp only [State.withUnread, hstack]

/-- Settles O45: the simulation with ST, CHANGED and ERR left as they are. -/
theorem staleSlotsAreNotRead : Obligations.StaleSlotsAreNotRead := by
  intro s t stale h hlive
  obtain ⟨o', hu, hfollows⟩ := mirrors_step (o := ⟨s.st, s.changed, s.err, stale⟩) hlive h
  refine ⟨t.withUnread o', hu, ?_, hfollows.live⟩
  simp only [State.withUnread, hfollows.st rfl, hfollows.changed rfl, hfollows.err rfl]

end Sys2Proof.Machine

/-! # Proofs of the family 20_memory.md: reads after writes, the big-endian fetch, stores over code -/

namespace Sys2Proof.Machine

/-! ## The memory write -/

/-- A memory write touches the memory and nothing else. -/
theorem State.frame_memWrite (s : State) (a : Nat) (b : Byte) : Frame [.mem] s (s.memWrite a b) := by
  intro p hp
  cases p with
  | mem => simp at hp
  | v | fb | key => exact fun _ => rfl
  | i | pc | sp | stack | dt | st | changed | await | awaitReg | run | err | draws => rfl

/-- Settles O57: what a read gives after a write to the same address and to another, and the write's frame. -/
theorem readAfterWrite : Obligations.ReadAfterWrite := by
  intro s a b hs ha
  refine ⟨?_, fun k hk => State.memRead_memWrite_ne s a b (by omega), Memory.wf_write hs (by omega) b,
    s.frame_memWrite a b⟩
  rw [State.memRead_memWrite s hs, if_pos rfl]

/-! ## The fetch and what a ready Step does with it -/

section ReadyStep

variable {s : State}

theorem State.fetch_of_le (h : s.pc.toNat + 1 ≤ 0xFFF) :
    s.fetch = .ok (wordOfBytes (s.memRead s.pc.toNat) (s.memRead (s.pc.toNat + 1))) := by
  rcases s.fetch_cases with ⟨-, hf⟩ | ⟨hgt, -⟩
  · exact hf
  · omega

theorem State.fetch_of_gt (h : s.pc.toNat + 1 > 0xFFF) :
    s.fetch = .error (.memOutOfRange (max s.pc.toNat 0x1000)) := by
  rcases s.fetch_cases with ⟨hle, -⟩ | ⟨-, hf⟩
  · omega
  · exact hf

theorem State.nextAction_of_fetch_error {e : FatalError} (hs : s.Ready) (hf : s.fetch = .error e) :
    s.nextAction = .fetchFault e := by
  obtain ⟨hrun, hawait⟩ := hs
  simp [State.nextAction, hrun, hawait, hf]

/-- A ready core whose fetched word decodes runs that instruction, with nothing done around it (30_encoding.md R58). -/
theorem step_eq_exec {w : Word} {i : Instr} (hs : s.Ready) (hf : s.fetch = .ok w) (hd : decodeWord w = .ok i) :
    step s = exec i s := by
  unfold step
  rw [State.nextAction_execute.2 ⟨hs, hf, hd⟩]

end ReadyStep

/-- Taking a fatal error is precise (60_exceptions.md R100). -/
theorem State.halts_raiseFatal (s : State) (e : FatalError) : Halts e s (s.raiseFatal e) := by
  refine ⟨rfl, rfl, fun p hp => ?_⟩
  cases p with
  | run | err => simp at hp
  | v | mem | fb | key => exact fun _ => rfl
  | i | pc | sp | stack | dt | st | changed | await | awaitReg | draws => rfl

/-- Settles O35: the two cases of the fetch, and the Step that takes the second one's error. -/
theorem fetchIsBigEndian : Obligations.FetchIsBigEndian := by
  refine ⟨fun s h => ⟨_, State.fetch_of_le h, wordOfBytes_toNat _ _⟩, fun s hs h => ?_⟩
  have hnext := State.nextAction_of_fetch_error hs (State.fetch_of_gt h)
  exact ⟨_, by rw [step, hnext], s.halts_raiseFatal _, by rw [stepResult, hnext]⟩

/-! ## A store and the fetches after it -/

theorem accessing_of_le {a n : Nat} (h : a + n - 1 ≤ 0xFFF) (s done : State) : accessing a n s done = .next done := by
  rcases accessing_cases a n s done with ⟨-, hdone⟩ | ⟨hgt, -⟩
  · exact hdone
  · omega

section Store

variable {s : State} {x : Nibble}

theorem exec_ldMemVx_of_le (h : s.i.toNat + x.toNat ≤ 0xFFF) :
    exec (.ldMemVx x) s = .next (s.storeBytes (dumpBytes x s) s.i.toNat).advance :=
  accessing_of_le (by omega) s _

theorem exec_ldB_of_le (h : s.i.toNat + 2 ≤ 0xFFF) :
    exec (.ldB x) s = .next (s.storeBytes (bcdDigits (s.getV x)) s.i.toNat).advance :=
  accessing_of_le (by omega) s _

theorem State.memRead_storeBytes_dumpBytes (hs : s.MemCanonical) (h : s.i.toNat + x.toNat ≤ 0xFFF) (a : Nat) :
    (s.storeBytes (dumpBytes x s) s.i.toNat).memRead a = s.dumpedByte x a := by
  rw [State.memRead_storeBytes _ _ s hs (by rw [dumpBytes_length]; omega), dumpBytes_length, State.dumpedByte]
  by_cases hin : s.i.toNat ≤ a ∧ a ≤ s.i.toNat + x.toNat
  · have hx := x.isLt
    have hreg : (BitVec.ofNat 4 (a - s.i.toNat)).toNat = a - s.i.toNat := Nat.mod_eq_of_lt (by omega)
    have hbyte := dumpBytes_getD x s (BitVec.ofNat 4 (a - s.i.toNat)) (by omega)
    rw [if_pos (by omega), if_pos hin, ← hbyte, hreg]
  · rw [if_neg (by omega), if_neg hin]

theorem State.memRead_storeBytes_bcdDigits (hs : s.MemCanonical) (h : s.i.toNat + 2 ≤ 0xFFF) (v : Byte) (a : Nat) :
    (s.storeBytes (bcdDigits v) s.i.toNat).memRead a = s.bcdByte v a := by
  rw [State.memRead_storeBytes _ _ s hs (by rw [bcdDigits_length]; omega), bcdDigits_length, State.bcdByte]
  by_cases hin : s.i.toNat ≤ a ∧ a < s.i.toNat + 3
  · obtain rfl | rfl | rfl : a = s.i.toNat ∨ a = s.i.toNat + 1 ∨ a = s.i.toNat + 2 := by omega
    all_goals simp [bcdDigits]
  · rw [if_neg hin, if_neg (by omega), if_neg (by omega), if_neg (by omega)]

end Store

/-- A fetch has no memory of its own (decision D27): it reads what the memory holds, whenever it was stored. -/
theorem State.fetch_of_memRead {t u : State} {f : Nat → Byte} (hread : ∀ a, t.memRead a = f a) (hmem : u.mem = t.mem)
    (hpc : u.pc.toNat + 1 ≤ 0xFFF) : u.fetch = .ok (f u.pc.toNat ++ f (u.pc.toNat + 1)) := by
  have hu : ∀ a, u.memRead a = f a := fun a => (congrArg (Memory.read · a) hmem).trans (hread a)
  rw [State.fetch_of_le hpc, hu, hu, wordOfBytes]

/-- Settles O24: the Step stores the bytes its registers held before it, and the memory it leaves is all that a later
fetch reads. -/
theorem storeIsFetchedNext : Obligations.StoreIsFetchedNext := by
  intro x s w hs hready hf
  refine ⟨fun hd hi => ⟨_, (step_eq_exec hready hf hd).trans (exec_ldMemVx_of_le hi), by simp, fun u hmem hpc => ?_⟩,
    fun hd hi => ⟨_, (step_eq_exec hready hf hd).trans (exec_ldB_of_le hi), by simp, fun u hmem hpc => ?_⟩⟩
  · exact State.fetch_of_memRead (State.memRead_storeBytes_dumpBytes hs hi) hmem hpc
  · exact State.fetch_of_memRead (State.memRead_storeBytes_bcdDigits hs hi (s.getV x)) hmem hpc

end Sys2Proof.Machine

/-! # Proofs of the family 30_encoding.md: decode and encode agree, the unknown words, what a ready Step decodes -/

namespace Sys2Proof

/-! ## Decoding an encoding -/

/-- The decoder on an encoding: one row lemma per constructor, and for SYS the words that R52 takes out. -/
theorem decodeWord_encode : ∀ {i : Instr}, WellFormed i = true → decodeWord (encode i) = .ok i
  | .sys nnn, h => decode_sys nnn (of_decide_eq_true h)
  | .cls, _ => decode_cls
  | .ret, _ => decode_ret
  | .jp nnn, _ => decode_jp nnn
  | .call nnn, _ => decode_call nnn
  | .seImm x nn, _ => decode_seImm x nn
  | .sneImm x nn, _ => decode_sneImm x nn
  | .seReg x y, _ => decode_seReg x y
  | .ldImm x nn, _ => decode_ldImm x nn
  | .addImm x nn, _ => decode_addImm x nn
  | .ldReg x y, _ => decode_ldReg x y
  | .orReg x y, _ => decode_orReg x y
  | .andReg x y, _ => decode_andReg x y
  | .xorReg x y, _ => decode_xorReg x y
  | .addReg x y, _ => decode_addReg x y
  | .subReg x y, _ => decode_subReg x y
  | .shr x y, _ => decode_shr x y
  | .subn x y, _ => decode_subn x y
  | .shl x y, _ => decode_shl x y
  | .sneReg x y, _ => decode_sneReg x y
  | .ldI nnn, _ => decode_ldI nnn
  | .jpV0 nnn, _ => decode_jpV0 nnn
  | .rnd x nn, _ => decode_rnd x nn
  | .drw x y n, _ => decode_drw x y n
  | .skp x, _ => decode_skp x
  | .sknp x, _ => decode_sknp x
  | .ldVxDt x, _ => decode_ldVxDt x
  | .ldVxK x, _ => decode_ldVxK x
  | .ldDtVx x, _ => decode_ldDtVx x
  | .ldStVx x, _ => decode_ldStVx x
  | .addI x, _ => decode_addI x
  | .ldF x, _ => decode_ldF x
  | .ldB x, _ => decode_ldB x
  | .ldMemVx x, _ => decode_ldMemVx x
  | .ldVxMem x, _ => decode_ldVxMem x

/-- A word's two bytes, high byte first, decode as the word does (30_encoding.md R47). -/
theorem decode_bytes {w : Word} {i : Instr} (h : decodeWord w = .ok i) (rest : List Byte) :
    decode (highByte w :: lowByte w :: rest) = .ok (i, rest) := by
  simp only [decode, wordOfBytes_bytes, h]

theorem tableWord_toNat (w : Word) : tableWord 16 w.toNat = w := by
  rw [tableWord, Nat.mod_eq_of_lt w.isLt, BitVec.ofNat_toNat, BitVec.setWidth_eq]

/-- Settles O51: the word of a well-formed instruction decodes to it, and so do the word's bytes. -/
theorem decodeOfEncode : Obligations.DecodeOfEncode := by
  intro i rest hi
  have hword := decodeWord_encode hi
  refine ⟨decode_bytes hword rest, ?_⟩
  rw [decodeTableWord, tableWord_toNat, decode_bytes hword []]

/-- Settles O53: the model's row lemmas, in the statement's order. -/
theorem tableRowsDecode : Obligations.TableRowsDecode :=
  ⟨decode_sys, decode_cls, decode_ret,
    fun nnn => ⟨decode_jp nnn, decode_call nnn, decode_ldI nnn, decode_jpV0 nnn⟩,
    fun x nn => ⟨decode_seImm x nn, decode_sneImm x nn, decode_ldImm x nn, decode_addImm x nn, decode_rnd x nn⟩,
    fun x y n => ⟨decode_seReg x y, decode_ldReg x y, decode_orReg x y, decode_andReg x y, decode_xorReg x y,
      decode_addReg x y, decode_subReg x y, decode_shr x y, decode_subn x y, decode_shl x y, decode_sneReg x y,
      decode_drw x y n⟩,
    fun x => ⟨decode_skp x, decode_sknp x, decode_ldVxDt x, decode_ldVxK x, decode_ldDtVx x, decode_ldStVx x,
      decode_addI x, decode_ldF x, decode_ldB x, decode_ldMemVx x, decode_ldVxMem x⟩⟩

/-- Settles O55: the fourteen words, evaluated. -/
theorem specWordsDecode : Obligations.SpecWordsDecode := by
  unfold Obligations.SpecWordsDecode
  decide

/-! ## Encoding a decoding -/

section Encodes

variable {w : Word} {g n : Nibble} {nn : Byte}

theorem append_fieldNNN (hg : fieldG w = g) : g ++ fieldNNN w = w := hg ▸ word_of_addr w

theorem append_fieldNN (hg : fieldG w = g) (hnn : fieldNN w = nn) : g ++ fieldX w ++ nn = w :=
  hg ▸ hnn ▸ word_of_imm w

theorem append_fieldN (hg : fieldG w = g) (hn : fieldN w = n) : g ++ fieldX w ++ fieldY w ++ n = w :=
  hg ▸ hn ▸ word_of_reg w

/-- `i` is the instruction the word `w` stands for: a well-formed one whose encoding is `w`. -/
def Encodes (i : Instr) (w : Word) : Prop := WellFormed i = true ∧ encode i = w

variable {i : Instr}

/-- R52: the two words that would be SYS are taken out before it. -/
theorem encodes_decodeGroup0 (hg : fieldG w = 0x0) : Encodes (decodeGroup0 w) w := by
  have hw : 0x0#4 ++ fieldNNN w = w := append_fieldNNN hg
  unfold decodeGroup0
  split_ifs with hcls hret
  · exact ⟨rfl, hcls.symm⟩
  · exact ⟨rfl, hret.symm⟩
  · refine ⟨decide_eq_true ⟨fun hn => hcls ?_, fun hn => hret ?_⟩, hw⟩
    · rw [← hw, hn]; rfl
    · rw [← hw, hn]; rfl

theorem decodeIfN0_eq_ok {j : Instr} (h : decodeIfN0 w j = .ok i) : fieldN w = 0 ∧ j = i := by
  unfold decodeIfN0 at h
  split_ifs at h with hn
  exact ⟨hn, Except.ok.inj h⟩

theorem encodes_of_decodeGroup8 (hg : fieldG w = 0x8) (h : decodeGroup8 w = .ok i) : Encodes i w := by
  unfold decodeGroup8 at h
  split at h <;> cases h
  all_goals exact ⟨rfl, append_fieldN hg ‹_›⟩

theorem encodes_of_decodeGroupE (hg : fieldG w = 0xE) (h : decodeGroupE w = .ok i) : Encodes i w := by
  unfold decodeGroupE at h
  split at h <;> cases h
  all_goals exact ⟨rfl, append_fieldNN hg ‹_›⟩

theorem encodes_of_decodeGroupF (hg : fieldG w = 0xF) (h : decodeGroupF w = .ok i) : Encodes i w := by
  unfold decodeGroupF at h
  split at h <;> cases h
  all_goals exact ⟨rfl, append_fieldNN hg ‹_›⟩

end Encodes

/-- Settles O52: group by group, the fields that chose the row are the row's fixed bits. -/
theorem encodeOfDecode : Obligations.EncodeOfDecode := by
  intro w i h
  unfold decodeWord at h
  split at h <;> rename_i hg
  case h_1 => cases h; exact encodes_decodeGroup0 hg
  case h_6 | h_10 =>
    obtain ⟨hn, rfl⟩ := decodeIfN0_eq_ok h
    exact ⟨rfl, append_fieldN hg hn⟩
  case h_9 => exact encodes_of_decodeGroup8 hg h
  case h_15 => exact encodes_of_decodeGroupE hg h
  case h_16 => exact encodes_of_decodeGroupF hg h
  case h_2 | h_3 | h_11 | h_12 => cases h; exact ⟨rfl, append_fieldNNN hg⟩
  case h_4 | h_5 | h_7 | h_8 | h_13 => cases h; exact ⟨rfl, append_fieldNN hg rfl⟩
  case h_14 => cases h; exact ⟨rfl, append_fieldN hg rfl⟩
  case h_17 => cases h

/-! ## The unknown words -/

section Unknown

variable {w : Word}

theorem fieldG_toNat (w : Word) : (fieldG w).toNat = w.toNat / 0x1000 := by
  have hw := w.isLt
  rw [fieldG, BitVec.extractLsb'_toNat, Nat.shiftRight_eq_div_pow]
  omega

theorem fieldN_toNat (w : Word) : (fieldN w).toNat = w.toNat % 0x10 := by
  rw [fieldN, BitVec.extractLsb'_toNat, Nat.shiftRight_zero]

theorem fieldNN_toNat (w : Word) : (fieldNN w).toNat = w.toNat % 0x100 := by
  rw [fieldNN, BitVec.extractLsb'_toNat, Nat.shiftRight_zero]

theorem decodeIfN0_eq_unknown_iff (i : Instr) :
    decodeIfN0 w i = .error (.unknown w) ↔ (fieldN w).toNat ≠ 0 := by
  unfold decodeIfN0
  split_ifs with hn
  · simp [hn]
  · simpa [BitVec.toNat_eq] using hn

theorem decodeGroup8_eq_unknown_iff :
    decodeGroup8 w = .error (.unknown w) ↔ (fieldN w).toNat ∈ [0x8, 0x9, 0xA, 0xB, 0xC, 0xD, 0xF] := by
  unfold decodeGroup8
  generalize fieldN w = n
  split
  case h_10 =>
    refine iff_of_true rfl ?_
    simp only [imp_false, List.mem_cons, List.not_mem_nil, or_false] at *
    bv_omega
  all_goals simp

theorem decodeGroupE_eq_unknown_iff :
    decodeGroupE w = .error (.unknown w) ↔ (fieldNN w).toNat ∉ [0x9E, 0xA1] := by
  unfold decodeGroupE
  generalize fieldNN w = nn
  split
  case h_3 => simp_all [BitVec.toNat_eq]
  all_goals simp

theorem decodeGroupF_eq_unknown_iff :
    decodeGroupF w = .error (.unknown w) ↔
      (fieldNN w).toNat ∉ [0x07, 0x0A, 0x15, 0x18, 0x1E, 0x29, 0x33, 0x55, 0x65] := by
  unfold decodeGroupF
  generalize fieldNN w = nn
  split
  case h_10 => simp_all [BitVec.toNat_eq]
  all_goals simp

end Unknown

/-- Settles O54: R53's sets are those of the five groups that can reject, each by its own sub-opcode. -/
theorem unknownWordsAreThose : Obligations.UnknownWordsAreThose := by
  intro w
  rw [← fieldG_toNat, ← fieldN_toNat, ← fieldNN_toNat]
  unfold decodeWord
  split <;> rename_i hg
  case h_6 | h_10 => simp [hg, decodeIfN0_eq_unknown_iff]
  case h_9 => simp [hg, decodeGroup8_eq_unknown_iff]
  case h_15 => simp [hg, decodeGroupE_eq_unknown_iff]
  case h_16 => simp [hg, decodeGroupF_eq_unknown_iff]
  case h_17 =>
    exfalso
    simp only [imp_false] at *
    bv_omega
  all_goals simp [hg]

end Sys2Proof

namespace Sys2Proof.Machine

/-! ## A ready Step decodes and executes, or answers the diagnostic -/

/-- Settles O34: `step_eq_exec` of the family 20_memory.md says this of each state, word and instruction. -/
theorem stepRunsDecodedInstruction : Obligations.StepRunsDecodedInstruction :=
  fun _ _ _ => step_eq_exec

/-- A PC write touches the PC and nothing else. -/
theorem State.frame_setPc (s : State) (w : Word) : Frame [.pc] s (s.setPc w) := by
  intro p hp
  cases p with
  | pc => simp at hp
  | v | mem | fb | key => exact fun _ => rfl
  | i | sp | stack | dt | st | changed | await | awaitReg | run | err | draws => rfl

theorem State.nextAction_of_decode_error {s : State} {w : Word} {r : DecodeReject} (hs : s.Ready)
    (hf : s.fetch = .ok w) (hd : decodeWord w = .error r) : s.nextAction = .unknown w := by
  obtain ⟨hrun, hawait⟩ := hs
  simp [State.nextAction, hrun, hawait, hf, hd]

/-- Settles O36: an `Unknown` word and SYS both end in `State.decodeError`, with the same result. -/
theorem decodeErrorIsNonFatal : Obligations.DecodeErrorIsNonFatal := by
  intro s w hs hf hw
  obtain ⟨hstep, hresult⟩ : step s = .next s.decodeError ∧ stepResult s = .decodeError s.pc w := by
    rcases hw with ⟨r, hd⟩ | ⟨nnn, hd⟩
    · have hnext := State.nextAction_of_decode_error hs hf hd
      exact ⟨by rw [step, hnext], by rw [stepResult, hnext]⟩
    · have hnext := State.nextAction_execute.2 ⟨hs, hf, hd⟩
      exact ⟨step_eq_exec hs hf hd, by rw [stepResult, hnext]; rfl⟩
  exact ⟨_, hstep, rfl, s.frame_setPc _, hresult⟩

end Sys2Proof.Machine

/-! # Proofs of the family 40_flow.md: jumps, skips, CALL and RET -/

namespace Sys2Proof.Machine

/-! ## Jumps -/

theorem addrWord_toNat (nnn : Addr) : (addrWord nnn).toNat = nnn.toNat := by
  unfold addrWord
  bv_omega

theorem byteWord_toNat (b : Byte) : (byteWord b).toNat = b.toNat := by
  unfold byteWord
  bv_omega

/-- The largest target, 0xFFF + 0xFF, is far from 2^16, so the sum of words is the sum of numbers. -/
theorem addrWord_add_byteWord_toNat (nnn : Addr) (b : Byte) :
    (addrWord nnn + byteWord b).toNat = nnn.toNat + b.toNat := by
  rw [BitVec.toNat_add, addrWord_toNat, byteWord_toNat]
  omega

/-- Settles O1: a decode error is a PC write. -/
theorem sysOnlyAdvances : Obligations.SysOnlyAdvances :=
  fun _ s => ⟨_, rfl, rfl, s.frame_setPc _⟩

/-- Settles O3: JP is a PC write, and the target's number is the operand's. -/
theorem jpSetsPc : Obligations.JpSetsPc :=
  fun nnn s => ⟨_, rfl, addrWord_toNat nnn, s.frame_setPc _⟩

/-- Settles O7: JP V0 is a PC write, and the target's sum does not wrap. -/
theorem jpV0AddsWithoutWrapping : Obligations.JpV0AddsWithoutWrapping :=
  fun nnn s => ⟨_, rfl, addrWord_add_byteWord_toNat nnn (s.getV 0), s.frame_setPc _⟩

/-! ## Skips -/

/-- A skip on a test that decides `p`: PC + 4 or PC + 2, and nothing else. -/
theorem State.skipIf_pc_and_frame (s : State) {c : Bool} {p : Prop} [Decidable p] (h : c = true ↔ p) :
    (s.skipIf c).pc = s.pc + (if p then 4 else 2) ∧ Frame [.pc] s (s.skipIf c) := by
  rw [State.skipIf_eq]
  refine ⟨?_, s.frame_setPc _⟩
  by_cases hp : p
  · rw [if_pos hp, if_pos (h.2 hp), State.setPc_pc]
  · rw [if_neg hp, if_neg (mt h.1 hp), State.setPc_pc]

/-- Settles O5: both are skips, on `==` and on `!=`. -/
theorem immediateSkips : Obligations.ImmediateSkips :=
  fun _ _ s => ⟨⟨_, rfl, s.skipIf_pc_and_frame beq_iff_eq⟩, ⟨_, rfl, s.skipIf_pc_and_frame bne_iff_ne⟩⟩

/-- Settles O6: both are skips, on `==` and on `!=`. -/
theorem registerSkips : Obligations.RegisterSkips :=
  fun _ _ s => ⟨⟨_, rfl, s.skipIf_pc_and_frame beq_iff_eq⟩, ⟨_, rfl, s.skipIf_pc_and_frame bne_iff_ne⟩⟩

/-! ## CALL and RET -/

/-- Replacing SP, STACK and PC touches nothing else. -/
theorem State.frame_call (s : State) (sp : Fin (Config.stackDepth + 1)) (stack : Vector Word Config.stackDepth)
    (pc : Word) : Frame [.sp, .stack, .pc] s { s with sp := sp, stack := stack, pc := pc } := by
  intro p hp
  cases p with
  | sp | stack | pc => simp at hp
  | v | mem | fb | key => exact fun _ => rfl
  | i | dt | st | changed | await | awaitReg | run | err | draws => rfl

/-- Replacing SP and PC touches nothing else: RET leaves the popped slot as it is. -/
theorem State.frame_ret (s : State) (sp : Fin (Config.stackDepth + 1)) (pc : Word) :
    Frame [.sp, .pc] s { s with sp := sp, pc := pc } := by
  intro p hp
  cases p with
  | stack => rfl
  | sp | pc => simp at hp
  | v | i | dt | st | mem | fb | changed | key | await | awaitReg | run | err | draws =>
    exact s.frame_call sp s.stack pc _ (by simp)

section Subroutines

variable (nnn : Addr) {s : State}

theorem execCall_of_full (h : s.sp.val = Config.stackDepth) :
    execCall nnn s = .next (s.raiseFatal .stackOverflow) := by
  rw [execCall, State.push_of_full h]

theorem execCall_of_slot {k : Fin Config.stackDepth} (h : s.sp.val = k.val) :
    execCall nnn s =
      .next { s with sp := k.succ, stack := s.stack.set k.val (s.pc + 2) k.isLt, pc := addrWord nnn } := by
  obtain ⟨k, hk⟩ := k
  subst h
  rw [execCall, State.push_of_lt hk]
  rfl

theorem execRet_of_empty (h : s.sp.val = 0) : execRet s = .next (s.raiseFatal .stackUnderflow) := by
  rw [execRet, State.pop_of_empty h]

theorem execRet_of_slot {k : Fin Config.stackDepth} (h : s.sp.val = k.val + 1) :
    execRet s = .next { s with sp := k.castSucc, pc := s.stack[k] } := by
  have hk : s.sp.val - 1 = k.val := by omega
  rw [execRet, State.pop_of_ne_zero (by omega) (hk ▸ k.isLt)]
  simp only [hk]
  rfl

end Subroutines

/-- Settles O2: the two cases of the pop, an empty stack and slot `k` on top. -/
theorem retPopsOrUnderflows : Obligations.RetPopsOrUnderflows :=
  ⟨fun s h => ⟨_, execRet_of_empty h, s.halts_raiseFatal _⟩,
    fun s _ h => ⟨_, execRet_of_slot h, rfl, rfl, s.frame_ret _ _⟩⟩

/-- Settles O4: the two cases of the push, a full stack and slot `k` free; the push writes that slot alone. -/
theorem callPushesOrOverflows : Obligations.CallPushesOrOverflows := by
  refine fun nnn => ⟨fun s h => ⟨_, execCall_of_full nnn h, s.halts_raiseFatal _⟩, fun s k h => ?_⟩
  refine ⟨_, execCall_of_slot nnn h, rfl, Vector.getElem_set_self .., fun j hj => ?_, addrWord_toNat nnn,
    s.frame_call _ _ _⟩
  exact Vector.getElem_set_ne k.isLt j.isLt (fun hkj => hj (Fin.ext hkj.symm))

/-- Settles O8: CALL fills slot SP and steps over it (`callPushesOrOverflows`), and RET takes its target from the same
slot (`retPopsOrUnderflows`). -/
theorem callThenRetReturns : Obligations.CallThenRetReturns := by
  intro nnn s hlt
  obtain ⟨t, hcall, hsp, htop, -, -, -⟩ := (callPushesOrOverflows nnn).2 s ⟨s.sp.val, hlt⟩ rfl
  refine ⟨t, hcall, fun t' hsp' hstack' => ?_⟩
  obtain ⟨u, hret, husp, hupc, -⟩ := retPopsOrUnderflows.2 t' ⟨s.sp.val, hlt⟩ (by rw [hsp', hsp])
  refine ⟨u, hret, ?_, Fin.ext husp⟩
  rw [hupc, hstack', htop]

end Sys2Proof.Machine

/-! # Proofs of the family 41_alu.md: loads, arithmetic, logic, shifts and the random byte -/

namespace Sys2Proof.Machine

/-! ## Frames of one update, and of one update after another -/

/-- A register write touches the registers and nothing else. -/
theorem State.frame_setV (s : State) (x : Nibble) (b : Byte) : Frame [.v] s (s.setV x b) := by
  intro p hp
  cases p with
  | v => simp at hp
  | mem | fb | key => exact fun _ => rfl
  | i | pc | sp | stack | dt | st | changed | await | awaitReg | run | err | draws => rfl

/-- A draw touches the counter of draws and nothing else. -/
theorem State.frame_countDraw (s : State) : Frame [.draws] s s.countDraw := by
  intro p hp
  cases p with
  | draws => simp at hp
  | v | mem | fb | key => exact fun _ => rfl
  | i | pc | sp | stack | dt | st | changed | await | awaitReg | run | err => rfl

theorem Part.Same.trans {p : Part} {s t u : State} (hst : p.Same s t) (htu : p.Same t u) : p.Same s u := by
  cases p with
  | v | mem | fb | key => exact fun k => (htu k).trans (hst k)
  | i | pc | sp | stack | dt | st | changed | await | awaitReg | run | err | draws =>
    exact Eq.trans htu hst

/-- Two updates in a row touch what either of them touches. -/
theorem Frame.trans {a b c : List Part} {s t u : State} (hst : Frame a s t) (htu : Frame b t u)
    (ha : a ⊆ c := by decide) (hb : b ⊆ c := by decide) : Frame c s u :=
  fun p hp => (hst p fun h => hp (ha h)).trans (htu p fun h => hp (hb h))

/-! ## The two ways an ALU instruction ends

The destination written (`finish`), or the destination and then VF (`finishFlag`): what the registers read afterwards,
and what an ALU statement says of everything else. -/

section Endings

variable (s : State) (x : Nibble) (r f : Byte)

theorem State.getV_finish : (s.setV x r).advance.getV x = r := by simp

theorem State.finish_touches : RegsExcept [x] s (s.setV x r).advance ∧ (s.setV x r).advance.pc = s.pc + 2 ∧
    Frame [.v, .pc] s (s.setV x r).advance := by
  refine ⟨fun k hk => ?_, rfl, (s.frame_setV x r).trans (State.frame_setPc _ _)⟩
  rw [State.advance_eq, State.setPc_getV, State.getV_setV, if_neg (by simpa using hk)]

/-- The flag's write is last, so it stands where the destination is VF too (decision D15). -/
theorem State.flag_finishFlag : ((s.setV x r).setFlag f).advance.getV 0xF#4 = f :=
  State.getV_finish _ _ _

theorem State.getV_finishFlag {x : Nibble} (hx : x ≠ 0xF#4) : ((s.setV x r).setFlag f).advance.getV x = r := by
  simp [hx]

theorem State.finishFlag_touches : RegsExcept [x, 0xF#4] s ((s.setV x r).setFlag f).advance ∧
    ((s.setV x r).setFlag f).advance.pc = s.pc + 2 ∧ Frame [.v, .pc] s ((s.setV x r).setFlag f).advance := by
  obtain ⟨hregs, hpc, hframe⟩ := (s.setV x r).finish_touches 0xF#4 f
  refine ⟨fun k hk => ?_, hpc, (s.frame_setV x r).trans hframe⟩
  obtain ⟨hkx, hkf⟩ : k ≠ x ∧ k ≠ 0xF#4 := by simpa using hk
  exact (hregs k (by simpa using hkf)).trans (by rw [State.getV_setV, if_neg hkx])

end Endings

/-! ## Results and flags as numbers -/

theorem toNat_sub_eq_emod (a b : Byte) : ((a - b).toNat : Int) = (a.toNat - b.toNat : Int) % 256 := by
  rw [BitVec.toNat_sub]
  omega

theorem flagOf_toNat (c : Bool) : (flagOf c).toNat = if c then 1 else 0 := by
  cases c <;> rfl

theorem carryFlag_toNat (a b : Byte) : (carryFlag a b).toNat = if a.toNat + b.toNat > 255 then 1 else 0 := by
  simp [carryFlag, flagOf_toNat]

theorem notBorrowFlag_toNat (a b : Byte) : (notBorrowFlag a b).toNat = if a.toNat < b.toNat then 0 else 1 := by
  by_cases h : a.toNat < b.toNat <;> simp [notBorrowFlag, flagOf_toNat, h]

theorem toNat_ushiftRight_one (b : Byte) : (b >>> 1).toNat = b.toNat / 2 := by
  rw [BitVec.toNat_ushiftRight, Nat.shiftRight_eq_div_pow, pow_one]

theorem toNat_shiftLeft_one (b : Byte) : (b <<< 1).toNat = b.toNat * 2 % 256 := by
  rw [BitVec.toNat_shiftLeft, Nat.shiftLeft_eq, pow_one]

/-- Masking with 0x01 is the remainder by 2. -/
theorem shiftedOutLow_toNat (b : Byte) : (shiftedOutLow b).toNat = b.toNat % 2 := by
  rw [shiftedOutLow, BitVec.toNat_and]
  exact Nat.and_one_is_mod _

/-- Bit 7 of a byte is its quotient by 128, which is 0 or 1. -/
theorem shiftedOutHigh_toNat (b : Byte) : (shiftedOutHigh b).toNat = b.toNat / 128 := by
  have hb : b.toNat / 2 ^ 7 % 2 = b.toNat / 128 := by omega
  rw [← hb, ← Nat.shiftRight_eq_div_pow, ← BitVec.toNat_ushiftRight]
  exact shiftedOutLow_toNat (b >>> 7)

/-- Each setting of SHIFT_SRC selects one of the two registers (00_scope.md R8). -/
theorem shiftSource_cases (src : ShiftSrc) (x y : Nibble) (s : State) :
    (src = .vy ∧ shiftSource src x y s = s.getV y) ∨ (src = .vx ∧ shiftSource src x y s = s.getV x) := by
  cases src with
  | vy => exact .inl ⟨rfl, rfl⟩
  | vx => exact .inr ⟨rfl, rfl⟩

/-! ## The statements -/

/-- Settles O10: both loads end without a flag. -/
theorem loadsCopyTheirOperand : Obligations.LoadsCopyTheirOperand :=
  fun x y nn s => ⟨⟨_, rfl, s.getV_finish x nn, s.finish_touches x nn⟩,
    ⟨_, rfl, s.getV_finish x (s.getV y), s.finish_touches x (s.getV y)⟩⟩

/-- Settles O11: the sum of bytes is the sum of numbers modulo 256, and no flag is written. -/
theorem addImmediateWraps : Obligations.AddImmediateWraps :=
  fun x nn s => ⟨_, rfl, by rw [s.getV_finish x, BitVec.toNat_add], s.finish_touches x _⟩

/-- Settles O12: the three end without a flag, and the library gives the bits of their results. -/
theorem logicIsBitwise : Obligations.LogicIsBitwise :=
  fun x _ s => ⟨⟨_, rfl, fun _ => by rw [s.getV_finish x, BitVec.getLsbD_or], s.finish_touches x _⟩,
    ⟨_, rfl, fun _ => by rw [s.getV_finish x, BitVec.getLsbD_and], s.finish_touches x _⟩,
    ⟨_, rfl, fun _ => by rw [s.getV_finish x, BitVec.getLsbD_xor], s.finish_touches x _⟩⟩

/-- Settles O13: the result stands where x is not F, and the flag, written last, stands always. -/
theorem addCarries : Obligations.AddCarries :=
  fun x _ s => ⟨_, rfl, fun hx => by rw [s.getV_finishFlag _ _ hx, BitVec.toNat_add],
    by rw [s.flag_finishFlag x, carryFlag_toNat], s.finishFlag_touches x _ _⟩

/-- Settles O14: SUB and SUBN end alike, with the operands exchanged. -/
theorem subtractionsBorrow : Obligations.SubtractionsBorrow :=
  fun x _ s => ⟨
    ⟨_, rfl, fun hx => by rw [s.getV_finishFlag _ _ hx, toNat_sub_eq_emod],
      by rw [s.flag_finishFlag x, notBorrowFlag_toNat], s.finishFlag_touches x _ _⟩,
    ⟨_, rfl, fun hx => by rw [s.getV_finishFlag _ _ hx, toNat_sub_eq_emod],
      by rw [s.flag_finishFlag x, notBorrowFlag_toNat], s.finishFlag_touches x _ _⟩⟩

/-- Settles O15: the source byte is `shiftSource` of whichever setting `Config.shiftSrc` is. -/
theorem shiftsMoveOneBit : Obligations.ShiftsMoveOneBit :=
  fun x y s => ⟨_, shiftSource_cases Config.shiftSrc x y s,
    ⟨_, rfl, fun hx => by rw [s.getV_finishFlag _ _ hx, toNat_ushiftRight_one],
      by rw [s.flag_finishFlag x, shiftedOutLow_toNat], s.finishFlag_touches x _ _⟩,
    ⟨_, rfl, fun hx => by rw [s.getV_finishFlag _ _ hx, toNat_shiftLeft_one],
      by rw [s.flag_finishFlag x, shiftedOutHigh_toNat], s.finishFlag_touches x _ _⟩⟩

/-- Settles O16: RND counts its draw, a frame of its own, and then ends without a flag. -/
theorem randomIsMasked : Obligations.RandomIsMasked := by
  intro x nn s
  obtain ⟨hregs, hpc, hframe⟩ := s.countDraw.finish_touches x (s.rngByte &&& nn)
  refine ⟨_, rfl, fun k => ?_, rfl, hregs, hpc, s.frame_countDraw.trans hframe⟩
  rw [State.getV_finish, BitVec.getLsbD_and, State.rngByte_eq]

end Sys2Proof.Machine

/-! # Proofs of the family 42_index_memory.md: the index register, BCD, and the register dump and load -/

namespace Sys2Proof.Machine

/-! ## The index register -/

/-- A write of I touches I and nothing else. -/
theorem State.frame_setI (s : State) (w : Word) : Frame [.i] s (s.setI w) := by
  intro p hp
  cases p with
  | i => simp at hp
  | v | mem | fb | key => exact fun _ => rfl
  | pc | sp | stack | dt | st | changed | await | awaitReg | run | err | draws => rfl

/-- An instruction that ends with a write of I touches I and PC. -/
theorem State.frame_setI_advance (s : State) (w : Word) : Frame [.i, .pc] s (s.setI w).advance :=
  (s.frame_setI w).trans (State.frame_setPc _ _)

/-- The largest digit address, 0x050 + 5 * 0xFF, is far from 2^16. -/
theorem fontAddr_toNat (digit : Byte) : (fontAddr digit).toNat = 0x050 + 5 * digit.toNat := by
  have hd := digit.isLt
  rw [fontAddr, BitVec.toNat_ofNat]
  exact Nat.mod_eq_of_lt (by simp only [Config.fontBase]; omega)

/-- Where the font stands as Reset left it, the five bytes of a digit are the rows of its glyph (10_state.md R31). -/
theorem State.memRead_glyph {s : State} (hfont : ∀ a : Nat, 0x050 ≤ a → a < 0x0A0 → s.memRead a = State.reset.memRead a)
    (d : Fin 16) (r : Fin 5) : s.memRead (0x050 + 5 * d.val + r.val) = Config.fontData.glyphRow d r := by
  rw [hfont _ (by omega) (by omega), Nat.add_assoc]
  exact Memory.resetByte_glyph Config.fontData d r

/-- Settles O17: the number of the widened operand is the operand's. -/
theorem ldISetsIndex : Obligations.LdISetsIndex :=
  fun nnn s => ⟨_, rfl, addrWord_toNat nnn, rfl, s.frame_setI_advance _⟩

/-- Settles O18: the sum of words is the sum of numbers modulo 2^16 (decision D10). -/
theorem addIWrapsAtSixteenBits : Obligations.AddIWrapsAtSixteenBits :=
  fun x s => ⟨_, rfl, (BitVec.toNat_add ..).trans (by rw [byteWord_toNat]), rfl, s.frame_setI_advance _⟩

/-- Settles O19: the font address does not wrap, the digit is not masked (decision D19), and FX29 leaves the glyphs
where they were. -/
theorem ldFPointsAtGlyph : Obligations.LdFPointsAtGlyph := by
  intro x s
  have hi := fontAddr_toNat (s.getV x)
  refine ⟨_, rfl, hi, rfl, s.frame_setI_advance _, fun d r hd hfont => ?_⟩
  simp only [State.advance_eq, State.setPc_i, State.setI_i, State.setPc_memRead, State.setI_memRead]
  rw [hi, hd, State.memRead_glyph hfont]

/-! ## What a multi-byte access touches, out of range and in range -/

/-- An access past 0xFFF halts the core, and its completion leaves no trace (decision D12). -/
theorem accessing_halts {a n : Nat} (h : a + n - 1 > 0xFFF) (s done : State) :
    ∃ t, accessing a n s done = .next t ∧ Halts (.memOutOfRange (max a 0x1000)) s t := by
  rcases accessing_cases a n s done with ⟨hle, -⟩ | ⟨-, hfatal⟩
  · omega
  · exact ⟨_, hfatal, s.halts_raiseFatal _⟩

theorem Frame.refl (touched : List Part) (s : State) : Frame touched s s := by
  intro p _
  cases p with
  | v | mem | fb | key => exact fun _ => rfl
  | i | pc | sp | stack | dt | st | changed | await | awaitReg | run | err | draws => rfl

/-- Consecutive stores touch the memory and nothing else: each of them does. -/
theorem State.frame_storeBytes (bytes : List Byte) (a : Nat) (s : State) : Frame [.mem] s (s.storeBytes bytes a) := by
  induction bytes generalizing a s with
  | nil => exact Frame.refl _ s
  | cons b rest ih => exact (s.frame_memWrite a b).trans (ih (a + 1) (s.memWrite a b))

/-- Loads touch the general registers and nothing else: each of them does. -/
theorem State.frame_loadRegs (a n : Nat) (s : State) : Frame [.v] s (s.loadRegs a n) := by
  induction n with
  | zero => exact Frame.refl _ s
  | succ k ih => exact ih.trans (State.frame_setV _ _ _)

/-- What an instruction that ends with stores leaves unchanged. -/
theorem State.store_touches (bytes : List Byte) (a : Nat) (s : State) :
    MemExcept a bytes.length s (s.storeBytes bytes a).advance ∧ (s.storeBytes bytes a).advance.pc = s.pc + 2 ∧
      Frame [.mem, .pc] s (s.storeBytes bytes a).advance :=
  ⟨fun _ hk => State.memRead_storeBytes_out bytes a s hk, by simp,
    (State.frame_storeBytes bytes a s).trans (State.frame_setPc _ _)⟩

/-! ## Storing the decimal digits -/

/-- The three bytes that FX33 stores are the digits themselves: each fits a byte. -/
theorem State.bcdByte_digits (s : State) (v : Byte) :
    (s.bcdByte v s.i.toNat).toNat = v.toNat / 100 ∧
      (s.bcdByte v (s.i.toNat + 1)).toNat = v.toNat / 10 % 10 ∧
      (s.bcdByte v (s.i.toNat + 2)).toNat = v.toNat % 10 := by
  have hv := v.isLt
  simp only [State.bcdByte, BitVec.toNat_ofNat, if_true, Nat.add_eq_left, Nat.add_right_inj, one_ne_zero,
    OfNat.ofNat_ne_zero, OfNat.ofNat_ne_one, if_false]
  omega

/-- Settles O20: the check of the three bytes comes before the first store, and in range the digits stand at I, I + 1
and I + 2. -/
theorem bcdStoresDigits : Obligations.BcdStoresDigits := by
  refine fun x => ⟨fun s h => accessing_halts (by omega) s _, fun s hs h => ?_⟩
  have hread := State.memRead_storeBytes_bcdDigits hs h (s.getV x)
  obtain ⟨hhundreds, htens, hones⟩ := s.bcdByte_digits (s.getV x)
  exact ⟨_, exec_ldB_of_le h, (congrArg BitVec.toNat (hread _)).trans hhundreds,
    (congrArg BitVec.toNat (hread _)).trans htens, (congrArg BitVec.toNat (hread _)).trans hones,
    State.store_touches (bcdDigits (s.getV x)) s.i.toNat s⟩

/-! ## Dumping and loading the registers -/

section DumpAndLoad

variable {s : State} {x : Nibble}

/-- The byte a dump puts `r` places above I is V[r]. -/
theorem State.dumpedByte_register {r : Nibble} (hr : r.toNat ≤ x.toNat) :
    s.dumpedByte x (s.i.toNat + r.toNat) = s.getV r := by
  rw [State.dumpedByte, if_pos (by omega), Nat.add_sub_cancel_left, BitVec.ofNat_toNat, BitVec.setWidth_eq]

theorem exec_ldVxMem_of_le (h : s.i.toNat + x.toNat ≤ 0xFFF) :
    exec (.ldVxMem x) s = .next (s.loadRegs s.i.toNat (x.toNat + 1)).advance :=
  accessing_of_le (by omega) s _

end DumpAndLoad

/-- Settles O21: the check of the x + 1 bytes comes before the first store, and in range they hold V0..Vx. -/
theorem dumpStoresRegisters : Obligations.DumpStoresRegisters := by
  refine fun x => ⟨fun s h => accessing_halts (by omega) s _, fun s hs h => ?_⟩
  obtain ⟨hmem, htouches⟩ := State.store_touches (dumpBytes x s) s.i.toNat s
  rw [dumpBytes_length] at hmem
  exact ⟨_, exec_ldMemVx_of_le h,
    fun r hr => (State.memRead_storeBytes_dumpBytes hs h _).trans (State.dumpedByte_register hr), hmem, htouches⟩

/-- Settles O22: the check of the x + 1 bytes comes before the first load (decision D11), and in range the registers up
to Vx, and no others, are loaded. -/
theorem loadReadsRegisters : Obligations.LoadReadsRegisters := by
  refine fun x => ⟨fun s h => accessing_halts (by omega) s _, fun s h => ?_⟩
  have hget := State.getV_loadRegs s.i.toNat (x.toNat + 1) x.isLt s
  refine ⟨_, exec_ldVxMem_of_le h, fun r hr => ?_, fun r hr => ?_, ?_,
    (State.frame_loadRegs _ _ s).trans (State.frame_setPc _ _)⟩
  · exact (hget r).trans (if_pos (by omega))
  · exact (hget r).trans (if_neg (by omega))
  · rw [State.advance_eq, State.setPc_pc, State.frame_loadRegs _ _ s .pc (by decide)]

/-- Settles O23: the dump puts V[r] at I + r and leaves I (`dumpStoresRegisters`), and the load reads V[r] from there and
leaves I too (`loadReadsRegisters`). -/
theorem dumpThenLoadRestores : Obligations.DumpThenLoadRestores := by
  intro x s hs h
  obtain ⟨t, hdump, hstored, -, -, hdumpFrame⟩ := (dumpStoresRegisters x).2 s hs h
  have hti : t.i = s.i := hdumpFrame .i (by decide)
  refine ⟨t, hdump, hti, fun t' hi' hmem' => ?_⟩
  have hti' : t'.i = s.i := hi'.trans hti
  obtain ⟨u, hload, hloaded, -, -, hloadFrame⟩ := (loadReadsRegisters x).2 t' (by rwa [hti'])
  have hui : u.i = t'.i := hloadFrame .i (by decide)
  refine ⟨u, hload, hui.trans hti', fun r hr => ?_⟩
  rw [hloaded r hr, hti', hmem', hstored r hr]

end Sys2Proof.Machine

/-! # Proofs of the family 43_display.md: the cleared screen, the drawn sprite and the sprite drawn twice -/

namespace Sys2Proof.Machine

/-! ## The cleared screen -/

/-- A mutation of the framebuffer touches FB and CHANGED and nothing else. -/
theorem State.frame_paint (fb : Framebuffer) (s : State) : Frame [.fb, .changed] s (s.paint fb) := by
  intro p hp
  cases p with
  | fb | changed => simp at hp
  | v | mem | key => exact fun _ => rfl
  | i | pc | sp | stack | dt | st | await | awaitReg | run | err | draws => rfl

/-- Settles O25: CLS paints the clear framebuffer and advances. -/
theorem clsClearsScreen : Obligations.ClsClearsScreen :=
  fun s => ⟨_, rfl, Framebuffer.cell_clear, rfl, rfl, (State.frame_paint _ s).trans (State.frame_setPc _ _)⟩

/-! ## The drawn sprite -/

/-- With no row to read, or with every row in range, DRW draws (decision D18). -/
theorem exec_drw_of_le {x y n : Nibble} {s : State} (h : n = 0 ∨ s.i.toNat + n.toNat - 1 ≤ 0xFFF) :
    exec (.drw x y n) s = .next (s.drawSprite x y n) := by
  by_cases hn : n = 0
  · exact if_pos hn
  · exact (if_neg hn).trans (accessing_of_le (h.resolve_left hn) s _)

/-- With a row past 0xFFF, DRW halts the core before anything is drawn (decisions D11, D12). -/
theorem exec_drw_halts {x y n : Nibble} {s : State} (hn : n ≠ 0) (h : s.i.toNat + n.toNat - 1 > 0xFFF) :
    ∃ t, exec (.drw x y n) s = .next t ∧ Halts (.memOutOfRange (max s.i.toNat 0x1000)) s t := by
  obtain ⟨t, haccess, hhalts⟩ := accessing_halts h s (s.drawSprite x y n)
  exact ⟨t, (if_neg hn).trans haccess, hhalts⟩

section DrawSprite

variable (x y n : Nibble) (s : State)

/-- A drawn sprite changes exactly the cells it covers (43_display.md R90). -/
theorem State.cell_drawSprite_ne_iff (idx : Nat) :
    (s.drawSprite x y n).fb.cell idx ≠ s.fb.cell idx ↔ Covered s (s.getV x) (s.getV y) n.toNat idx := by
  have hcell : (s.drawSprite x y n).fb.cell idx = true ↔
      ¬(s.fb.cell idx = true ↔ Covered s (s.getV x) (s.getV y) n.toNat idx) :=
    State.drawRows_cell (s.getV x) (s.getV y) (Nat.le_of_lt_succ n.isLt) s idx
  rw [Ne, Bool.eq_iff_iff, hcell]
  tauto

/-- The blitter's collision detector: some cell has gone from on to off. -/
theorem State.drawRows_collision_iff_erases :
    (s.drawRows (s.getV x) (s.getV y) n.toNat).collision = true ↔
      ∃ idx, s.fb.cell idx = true ∧ (s.drawSprite x y n).fb.cell idx = false := by
  rw [State.drawRows_collision _ _ (Nat.le_of_lt_succ n.isLt)]
  refine exists_congr fun idx => ?_
  rw [← State.cell_drawSprite_ne_iff, and_comm]
  refine and_congr_right fun hon => ?_
  rw [hon, Ne, Bool.not_eq_true]

/-- VF's write comes after the cells', and it is the collision detector's. -/
theorem State.flag_drawSprite : (s.drawSprite x y n).getV 0xF#4 =
    flagOf (s.drawRows (s.getV x) (s.getV y) n.toNat).collision :=
  State.getV_finish _ _ _

/-- VF after a drawn sprite tells whether some cell has gone from on to off. -/
theorem State.flag_drawSprite_cases :
    ((∃ idx, s.fb.cell idx = true ∧ (s.drawSprite x y n).fb.cell idx = false) → (s.drawSprite x y n).getV 0xF#4 = 1) ∧
    ((∀ idx, s.fb.cell idx = true → (s.drawSprite x y n).fb.cell idx = true) →
      (s.drawSprite x y n).getV 0xF#4 = 0) := by
  rw [State.flag_drawSprite, ← State.drawRows_collision_iff_erases]
  refine ⟨fun hcol => by rw [hcol]; rfl, fun hkept => ?_⟩
  have hnone : ¬(s.drawRows (s.getV x) (s.getV y) n.toNat).collision = true := by
    rw [State.drawRows_collision_iff_erases]
    rintro ⟨idx, hon, hoff⟩
    exact Bool.false_ne_true (hoff.symm.trans (hkept idx hon))
  rw [Bool.eq_false_of_not_eq_true hnone]
  rfl

/-- What a drawn sprite sets besides cells and VF, and what it leaves unchanged. -/
theorem State.drawSprite_touches : (s.drawSprite x y n).changed = true ∧ RegsExcept [0xF#4] s (s.drawSprite x y n) ∧
    (s.drawSprite x y n).pc = s.pc + 2 ∧ Frame [.v, .fb, .changed, .pc] s (s.drawSprite x y n) := by
  obtain ⟨hregs, hpc, hframe⟩ :=
    (s.paint (s.drawRows (s.getV x) (s.getV y) n.toNat).fb).finish_touches 0xF#4
      (flagOf (s.drawRows (s.getV x) (s.getV y) n.toNat).collision)
  exact ⟨rfl, hregs, hpc, (State.frame_paint _ s).trans hframe⟩

end DrawSprite

/-- Settles O26: the check of the rows comes before the drawing, which flips the covered cells and flags the erased
ones. -/
theorem drawFlipsCoveredCells : Obligations.DrawFlipsCoveredCells := by
  refine fun x y n => ⟨fun s hn h => exec_drw_halts hn h, fun s h => ?_⟩
  obtain ⟨hcollides, hclear⟩ := s.flag_drawSprite_cases x y n
  exact ⟨_, exec_drw_of_le h, s.cell_drawSprite_ne_iff x y n, hcollides, hclear, s.drawSprite_touches x y n⟩

/-! ## The sprite drawn twice -/

/-- The cells a sprite covers depend on the state through I and the sprite's bytes only. -/
theorem covered_congr {s t : State} (hi : t.i = s.i) (hmem : ∀ a, t.memRead a = s.memRead a) (x0 y0 : Byte)
    (n idx : Nat) : Covered t x0 y0 n idx ↔ Covered s x0 y0 n idx := by
  simp only [Covered, hi, hmem]

/-- A cell that a second draw flips exactly if the first one did is as it was. -/
theorem eq_of_flips_alike : ∀ before between after : Bool,
    (after ≠ between ↔ between ≠ before) → after = before := by decide

/-- Settles O27: the first draw leaves I, the sprite and its origin, so the second one flips the same cells back; on a
clear screen the cells it turns off are those the first one turned on, the covered ones. -/
theorem drawTwiceErases : Obligations.DrawTwiceErases := by
  intro x y n s hx hy h
  obtain ⟨t, hfirst, hflip, -, -, -, hregs, -, hframe⟩ := (drawFlipsCoveredCells x y n).2 s h
  have hi : t.i = s.i := hframe .i (by decide)
  obtain ⟨u, hsecond, hflip', hcollides, hclear, -⟩ := (drawFlipsCoveredCells x y n).2 t (by rwa [hi])
  rw [hregs x (by simpa using hx), hregs y (by simpa using hy)] at hflip'
  have hback : ∀ idx, u.fb.cell idx = s.fb.cell idx := by
    refine fun idx => eq_of_flips_alike _ (t.fb.cell idx) _ ?_
    rw [hflip', hflip, covered_congr hi (hframe .mem (by decide))]
  refine ⟨t, u, hfirst, hsecond, Framebuffer.eq_of_cell hback, fun hoff => ⟨fun hvf => ?_, ?_⟩⟩
  · by_contra hnone
    have hdark : ∀ idx, t.fb.cell idx = false := fun idx =>
      (not_not.1 fun hne => hnone ⟨idx, (hflip idx).1 hne⟩).trans (hoff idx)
    have hzero := hclear fun idx hon => absurd (hon.symm.trans (hdark idx)) (by decide)
    exact absurd (hvf.symm.trans hzero) (by decide)
  · rintro ⟨idx, hcov⟩
    have hlit : t.fb.cell idx = true := by simpa [hoff idx] using (hflip idx).2 hcov
    exact hcollides ⟨idx, hlit, (hback idx).trans (hoff idx)⟩

end Sys2Proof.Machine

/-! # Proofs of the family 44_timers_keys.md: key skips, timer moves, the key wait -/

namespace Sys2Proof.Machine

/-! ## Skips on a key -/

section KeySkip

variable {x : Nibble} {s : State} (level : Bool)

/-- A register past 0x0F names no key, and the skip halts the core (decision D20). -/
theorem skipOnKey_halts (h : (s.getV x).toNat > 0x0F) :
    ∃ t, skipOnKey level x s = .next t ∧ Halts (.keyIndexOutOfRange (s.getV x)) s t := by
  rcases keyAt_cases (s.getV x) s with ⟨-, hkey⟩ | ⟨hle, -⟩
  · exact ⟨_, by rw [skipOnKey, hkey], s.halts_raiseFatal _⟩
  · omega

/-- A register that holds `k` makes the skip test whether key `k` is at the wanted level. -/
theorem skipOnKey_of_key {k : Nibble} (h : (s.getV x).toNat = k.toNat) :
    skipOnKey level x s = .next (s.skipIf (s.getKey k == level)) := by
  have hk : (s.getV x).setWidth 4 = k := by bv_omega
  rcases keyAt_cases (s.getV x) s with ⟨hgt, -⟩ | ⟨-, hkey⟩
  · omega
  · rw [skipOnKey, hkey, hk]

end KeySkip

/-- Settles O28: SKP and SKNP are the skip on a key at the two levels. -/
theorem keySkips : Obligations.KeySkips :=
  fun _ => ⟨fun _ h => ⟨skipOnKey_halts true h, skipOnKey_halts false h⟩,
    fun s _ h => ⟨⟨_, skipOnKey_of_key true h, s.skipIf_pc_and_frame beq_iff_eq⟩,
      ⟨_, skipOnKey_of_key false h, s.skipIf_pc_and_frame beq_iff_eq⟩⟩⟩

/-! ## The timers -/

/-- A write to the delay timer touches DT and nothing else. -/
theorem State.frame_setDt (s : State) (b : Byte) : Frame [.dt] s (s.setDt b) := by
  intro p hp
  cases p with
  | dt => simp at hp
  | v | mem | fb | key => exact fun _ => rfl
  | i | pc | sp | stack | st | changed | await | awaitReg | run | err | draws => rfl

/-- A write to the sound timer touches ST and nothing else. -/
theorem State.frame_setSt (s : State) (b : Byte) : Frame [.st] s (s.setSt b) := by
  intro p hp
  cases p with
  | st => simp at hp
  | v | mem | fb | key => exact fun _ => rfl
  | i | pc | sp | stack | dt | changed | await | awaitReg | run | err | draws => rfl

/-- Settles O29: FX07 is a register write, FX15 and FX18 are one timer write each, and all three advance. -/
theorem timerMoves : Obligations.TimerMoves :=
  fun x s => ⟨⟨_, rfl, s.getV_finish x s.dt, s.finish_touches x s.dt⟩,
    ⟨_, rfl, rfl, rfl, (s.frame_setDt _).trans (State.frame_setPc _ _)⟩,
    ⟨_, rfl, rfl, rfl, (s.frame_setSt _).trans (State.frame_setPc _ _)⟩⟩

/-! ## The key wait -/

/-- The start of a key wait touches AWAIT and AWAIT_REG and nothing else. -/
theorem State.frame_beginWait (s : State) (x : Nibble) : Frame [.await, .awaitReg] s (s.beginWait x) := by
  intro p hp
  cases p with
  | await | awaitReg => simp at hp
  | v | mem | fb | key => exact fun _ => rfl
  | i | pc | sp | stack | dt | st | changed | run | err | draws => rfl

/-- The end of a key wait touches AWAIT and nothing else: AWAIT_REG stays. -/
theorem State.frame_endWait (s : State) : Frame [.await] s s.endWait := by
  intro p hp
  cases p with
  | await => simp at hp
  | v | mem | fb | key => exact fun _ => rfl
  | i | pc | sp | stack | dt | st | changed | awaitReg | run | err | draws => rfl

/-- Settles O30: FX0A begins the wait and does not advance. -/
theorem keyWaitBegins : Obligations.KeyWaitBegins :=
  fun x s => ⟨_, rfl, rfl, rfl, s.frame_beginWait x⟩

section KeyWait

variable {s : State} (hrun : s.run = .running) (hawait : s.await = true)
include hrun hawait

theorem State.nextAction_of_no_key (h : ∀ k : Nibble, s.getKey k = false) : s.nextAction = .waiting := by
  simp [State.nextAction, hrun, hawait, s.leastKey_eq_none.2 h]

theorem State.nextAction_of_least_key {k : Nibble} (hk : s.getKey k = true)
    (hleast : ∀ j : Nibble, j.toNat < k.toNat → s.getKey j = false) : s.nextAction = .resolve k := by
  simp [State.nextAction, hrun, hawait, (s.leastKey_eq_some k).2 ⟨hk, hleast⟩]

end KeyWait

theorem State.getV_resolveWait (s : State) (k r : Nibble) :
    (s.resolveWait k).getV r = if r = s.awaitReg then k.setWidth 8 else s.getV r := by
  rw [State.resolveWait_eq, State.setPc_getV, State.endWait_getV, State.getV_setV]

/-- A resolved wait puts the key's number into the awaited register, and no other register changes. -/
theorem State.registers_resolveWait (s : State) (k : Nibble) :
    ((s.resolveWait k).getV s.awaitReg).toNat = k.toNat ∧ RegsExcept [s.awaitReg] s (s.resolveWait k) := by
  refine ⟨?_, fun r hr => ?_⟩
  · rw [State.getV_resolveWait, if_pos rfl]
    bv_omega
  · rw [State.getV_resolveWait, if_neg (by simpa using hr)]

/-- A resolved wait touches the registers, AWAIT and PC and nothing else. -/
theorem State.frame_resolveWait (s : State) (k : Nibble) : Frame [.v, .await, .pc] s (s.resolveWait k) :=
  have hwait : Frame [.v, .await] s (s.setV s.awaitReg (k.setWidth 8)).endWait :=
    (s.frame_setV _ _).trans (State.frame_endWait _)
  hwait.trans (State.frame_setPc _ _)

/-- Settles O31: a pending wait's Step goes by the least held key (`State.leastKey`), and fetches nothing. -/
theorem keyWaitResolves : Obligations.KeyWaitResolves := by
  refine fun s hrun hawait => ⟨fun hnone => ?_, fun k hk hleast => ?_⟩
  · have hnext := State.nextAction_of_no_key hrun hawait hnone
    exact ⟨by rw [step, hnext], by rw [stepResult, hnext]⟩
  · have hnext := State.nextAction_of_least_key hrun hawait hk hleast
    obtain ⟨hreg, hothers⟩ := s.registers_resolveWait k
    exact ⟨by rw [stepResult, hnext], _, by rw [step, hnext], hreg, hothers, rfl, rfl, s.frame_resolveWait k⟩

end Sys2Proof.Machine

/-! # Proofs of the family 60_exceptions.md: totality, invariants of runs, precise errors, HALTED, the host's events -/

namespace Sys2Proof.Machine

/-! ## Every Step answers a next state -/

theorem accessing_answers (a n : Nat) (s done : State) : ∃ t, accessing a n s done = .next t := by
  rcases accessing_cases a n s done with ⟨-, h⟩ | ⟨-, h⟩
  · exact ⟨_, h⟩
  · exact ⟨_, h⟩

theorem skipOnKey_answers (level : Bool) (x : Nibble) (s : State) : ∃ t, skipOnKey level x s = .next t := by
  rcases keyAt_cases (s.getV x) s with ⟨-, hkey⟩ | ⟨-, hkey⟩
  · exact ⟨_, by rw [skipOnKey, hkey]⟩
  · exact ⟨_, by rw [skipOnKey, hkey]⟩

/-- Only the instructions that can raise a fatal error (60_exceptions.md R98) branch, and both branches answer. -/
theorem exec_answers (i : Instr) (s : State) : ∃ t, exec i s = .next t := by
  cases i with
  | ret =>
    rcases s.pop_cases with ⟨-, hpop⟩ | ⟨_, _, hpop⟩
    · exact ⟨_, by rw [exec, execRet, hpop]⟩
    · exact ⟨_, by rw [exec, execRet, hpop]⟩
  | call nnn =>
    rcases s.push_cases (s.pc + 2) with ⟨-, hpush⟩ | ⟨_, hpush⟩
    · exact ⟨_, by rw [exec, execCall, hpush]⟩
    · exact ⟨_, by rw [exec, execCall, hpush]⟩
  | drw x y n =>
    by_cases hn : n = 0
    · exact ⟨_, by rw [exec, execDrw, if_pos hn]⟩
    · rw [exec, execDrw, if_neg hn]
      exact accessing_answers _ _ _ _
  | skp | sknp => exact skipOnKey_answers _ _ _
  | ldB | ldMemVx | ldVxMem => exact accessing_answers _ _ _ _
  | sys | cls | jp | seImm | sneImm | seReg | sneReg | ldImm | addImm | ldReg | orReg | andReg | xorReg | addReg
  | subReg | shr | subn | shl | ldI | jpV0 | rnd | ldVxDt | ldVxK | ldDtVx | ldStVx | addI | ldF => exact ⟨_, rfl⟩

theorem step_answers (s : State) : ∃ t, step s = .next t := by
  unfold step
  cases s.nextAction with
  | execute i w => exact exec_answers i s
  | halted | waiting | resolve | fetchFault | unknown => exact ⟨_, rfl⟩

/-- Settles O39: by instruction, and a Step that does not execute one answers at once. -/
theorem stepAlwaysAnswersNext : Obligations.StepAlwaysAnswersNext :=
  ⟨exec_answers, step_answers⟩

/-! ## What a transaction does to the state -/

theorem stepState_of_step {s t : State} (h : step s = .next t) : stepState s = t := by
  rw [stepState, h]

/-- The Step transaction leads where `step` does: the cases in which it would stay do not arise. -/
theorem step_eq_next_stepState (s : State) : step s = .next (stepState s) := by
  obtain ⟨t, h⟩ := step_answers s
  rw [h, stepState_of_step h]

/-- Everything LoadRom can do (70_reset_and_hazards.md R120, R121). -/
theorem State.loadRom_cases (bytes : List Byte) (s : State) :
    (bytes.length > Config.maxRom ∧ s.loadRom bytes = s) ∨
      (bytes.length ≤ Config.maxRom ∧ s.loadRom bytes = s.storeBytes bytes Config.progBase) := by
  by_cases h : bytes.length > Config.maxRom
  · exact Or.inl ⟨h, if_pos h⟩
  · exact Or.inr ⟨Nat.le_of_not_gt h, if_neg h⟩

/-- LoadRom touches the memory and nothing else. -/
theorem State.loadRom_eq_set_mem (bytes : List Byte) (s : State) :
    s.loadRom bytes = { s with mem := (s.loadRom bytes).mem } := by
  rcases s.loadRom_cases bytes with ⟨-, h⟩ | ⟨-, h⟩
  · rw [h]
  · rw [h]
    exact State.storeBytes_eq_set_mem _ _ _

@[simp] theorem State.loadRom_run (bytes : List Byte) (s : State) : (s.loadRom bytes).run = s.run := by
  rw [State.loadRom_eq_set_mem]

@[simp] theorem State.loadRom_err (bytes : List Byte) (s : State) : (s.loadRom bytes).err = s.err := by
  rw [State.loadRom_eq_set_mem]

/-! ## The three invariants along every run

Reset establishes each, a Step keeps each, and of the other transactions only LoadRom touches anything that an invariant
speaks of: it writes memory, inside the 4096 bytes. -/

/-- The longest image that LoadRom accepts ends at 0xFFF. -/
theorem State.loadRom_memCanonical {s : State} (hs : s.MemCanonical) (bytes : List Byte) :
    (s.loadRom bytes).MemCanonical := by
  rcases s.loadRom_cases bytes with ⟨-, h⟩ | ⟨hlen, h⟩
  · rwa [h]
  · rw [h]
    have hend : Config.progBase + bytes.length ≤ 4096 := by
      simp only [Config.maxRom, Config.memSize, Config.progBase] at hlen ⊢
      omega
    exact State.storeBytes_memCanonical _ _ s hs hend

theorem transact_memCanonical (τ : Transaction) {s : State} (hs : s.MemCanonical) : (transact τ s).MemCanonical := by
  cases τ with
  | reset => exact State.reset_memCanonical
  | loadRom bytes => exact State.loadRom_memCanonical hs bytes
  | step => exact stepKeepsMemoryCanonical s _ hs (step_eq_next_stepState s)
  | tick | keyEvent | readFramebuffer | clearChanged | readStatus => exact hs

theorem transact_pcBounded (τ : Transaction) {s : State} (hs : s.PcBounded) : (transact τ s).PcBounded := by
  cases τ with
  | reset => exact invariantsHoldAtReset.2.1
  | loadRom bytes => rw [transact, State.loadRom_eq_set_mem]; exact hs
  | step => exact stepKeepsPcBounded s _ hs (step_eq_next_stepState s)
  | tick | keyEvent | readFramebuffer | clearChanged | readStatus => exact hs

theorem transact_errRecorded (τ : Transaction) {s : State} (hs : s.ErrRecorded) : (transact τ s).ErrRecorded := by
  cases τ with
  | reset => exact invariantsHoldAtReset.2.2
  | loadRom bytes => rw [transact, State.loadRom_eq_set_mem]; exact hs
  | step => exact stepKeepsErrRecorded s _ hs (step_eq_next_stepState s)
  | tick | keyEvent | readFramebuffer | clearChanged | readStatus => exact hs

/-- Settles O50: by induction on the run, each invariant on its own, from its value at reset. -/
theorem reachableStatesAreSound : Obligations.ReachableStatesAreSound := by
  refine ⟨fun τ s hmem hpc herr =>
    ⟨transact_memCanonical τ hmem, transact_pcBounded τ hpc, transact_errRecorded τ herr⟩, fun s hs => ?_⟩
  induction hs with
  | reset => exact invariantsHoldAtReset
  | transact τ s _ ih =>
    obtain ⟨hmem, hpc, herr⟩ := ih
    exact ⟨transact_memCanonical τ hmem, transact_pcBounded τ hpc, transact_errRecorded τ herr⟩

/-! ## Precise errors -/

/-- SYS raises no fatal error (decision D6). -/
theorem isSys_eq_false_of_raiseFatal {i : Instr} {s : State} {e : FatalError} (hrun : s.run = .running)
    (h : exec i s = .next (s.raiseFatal e)) : isSys i = false := by
  cases i with
  | sys =>
    have heq : s.decodeError = s.raiseFatal e := Host.Outcome.next.inj h
    have hhalted : s.run = .halted := congrArg State.run heq
    exact absurd (hrun.symm.trans hhalted) (by decide)
  | _ => rfl

/-- Settles O37: only an out-of-range fetch and an instruction's fatal effect halt a running core, and both are
`State.raiseFatal`. -/
theorem fatalErrorsArePrecise : Obligations.FatalErrorsArePrecise := by
  intro s t hrun h hhalted
  have hresult := stepState_of_step h
  have hnot : t.run ≠ s.run := by rw [hrun, hhalted]; decide
  unfold step at h
  cases ha : s.nextAction with
  | halted | waiting | resolve | unknown =>
    rw [ha] at h; cases h
    exact absurd rfl hnot
  | fetchFault e =>
    rw [ha] at h; cases h
    exact ⟨e, rfl, by rw [stepResult, ha]⟩
  | execute i w =>
    rw [ha] at h
    rcases (exec_effect h).fatal_or_same_run with ⟨e, -, rfl⟩ | ⟨hsame, -⟩
    · have hsys := isSys_eq_false_of_raiseFatal hrun h
      exact ⟨e, rfl, by simp [stepResult, ha, hsys, hresult, execResult]⟩
    · exact absurd hsame hnot

/-! ## The halted core -/

theorem State.nextAction_of_halted {s : State} (h : s.run = .halted) : s.nextAction = .halted := by
  rw [State.nextAction, h]

theorem step_of_halted {s : State} (h : s.run = .halted) : step s = .next s := by
  rw [step, State.nextAction_of_halted h]

/-- Outside a Step, Reset alone writes RUN or ERR (60_exceptions.md R105); a halted core's Step writes nothing. -/
theorem transact_run_err_of_halted {s : State} (h : s.run = .halted) {τ : Transaction} (hτ : τ ≠ .reset) :
    (transact τ s).run = s.run ∧ (transact τ s).err = s.err := by
  cases τ with
  | reset => exact absurd rfl hτ
  | step => rw [transact, stepState_of_step (step_of_halted h)]; exact ⟨rfl, rfl⟩
  | loadRom bytes => exact ⟨s.loadRom_run bytes, s.loadRom_err bytes⟩
  | tick | keyEvent | readFramebuffer | clearChanged | readStatus => exact ⟨rfl, rfl⟩

/-- Settles O38: HALTED is tested first in a Step (60_exceptions.md R103), and only Reset writes RUN otherwise. -/
theorem onlyResetLeavesHalted : Obligations.OnlyResetLeavesHalted := by
  refine fun s h => ⟨step_of_halted h, by rw [stepResult, State.nextAction_of_halted h], fun τ hτ => ?_, rfl, rfl⟩
  obtain ⟨hrun, herr⟩ := transact_run_err_of_halted h hτ
  exact ⟨hrun.trans h, herr⟩

/-! ## Ticks -/

theorem decay_toNat (b : Byte) : (decay b).toNat = b.toNat - 1 := by
  unfold decay
  split_ifs with h
  · simp [h]
  · bv_omega

/-- A Tick touches the two timers and nothing else. -/
theorem State.frame_tick (s : State) : Frame [.dt, .st] s s.tick :=
  (s.frame_setDt _).trans (State.frame_setSt _ _)

/-- The tone sounds exactly when ST is about to end (decision D23). -/
theorem respond_tick (s : State) : respond .tick s = .tone (decide (s.st.toNat = 1)) := by
  have hone : s.st = 1 ↔ s.st.toNat = 1 := by bv_omega
  simp only [respond, State.tone, ← hone, beq_eq_decide]

/-- Settles O32: both timers decay, and the Tick writes nothing else. -/
theorem tickDecrementsTimers : Obligations.TickDecrementsTimers :=
  fun s => ⟨decay_toNat s.dt, decay_toNat s.st, s.frame_tick, respond_tick s⟩

/-- `n` Ticks take each timer down by `n` and touch nothing else. -/
theorem runTransactions_ticks (n : Nat) (s : State) :
    (runTransactions (List.replicate n .tick) s).dt.toNat = s.dt.toNat - n ∧
      (runTransactions (List.replicate n .tick) s).st.toNat = s.st.toNat - n ∧
      Frame [.dt, .st] s (runTransactions (List.replicate n .tick) s) := by
  induction n generalizing s with
  | zero => exact ⟨rfl, rfl, Frame.refl _ s⟩
  | succ n ih =>
    obtain ⟨hdt, hst, hframe⟩ := ih s.tick
    have hdt1 : s.tick.dt.toNat = s.dt.toNat - 1 := decay_toNat s.dt
    have hst1 : s.tick.st.toNat = s.st.toNat - 1 := decay_toNat s.st
    rw [List.replicate_succ, runTransactions, transact]
    exact ⟨by omega, by omega, s.frame_tick.trans hframe⟩

/-- Settles O33: by induction on the number of Ticks; the next one sounds if ST is then 1. -/
theorem timersDecayAndToneOnce : Obligations.TimersDecayAndToneOnce := by
  intro n s
  obtain ⟨hdt, hst, hframe⟩ := runTransactions_ticks n s
  have hlast : s.st.toNat - n = 1 ↔ s.st.toNat = n + 1 := by omega
  exact ⟨hdt, hst, hframe, by simp only [respond_tick, hst, hlast]⟩

/-! ## Key events and reads -/

/-- A key event touches the keypad and nothing else. -/
theorem State.frame_keyEvent (s : State) (k : Nibble) (level : Bool) : Frame [.key] s (s.keyEvent k level) := by
  intro p hp
  cases p with
  | key => simp at hp
  | v | mem | fb => exact fun _ => rfl
  | i | pc | sp | stack | dt | st | changed | await | awaitReg | run | err | draws => rfl

/-- ClearChanged touches CHANGED and nothing else. -/
theorem State.frame_clearChanged (s : State) : Frame [.changed] s s.clearChanged := by
  intro p hp
  cases p with
  | changed => simp at hp
  | v | mem | fb | key => exact fun _ => rfl
  | i | pc | sp | stack | dt | st | await | awaitReg | run | err | draws => rfl

/-- Settles O60: the two writes have one element each in their frames, and the two reads return the state itself. -/
theorem hostReadsAndEvents : Obligations.HostReadsAndEvents := by
  refine fun s k level => ⟨⟨?_, fun j hj => ?_, s.frame_keyEvent k level⟩, ⟨rfl, s.frame_clearChanged⟩, ⟨rfl, rfl⟩,
    rfl, rfl⟩
  · exact (s.getKey_keyEvent k k level).trans (if_pos rfl)
  · exact (s.getKey_keyEvent k j level).trans (if_neg hj)

end Sys2Proof.Machine

/-! # Proofs of the family 70_reset_and_hazards.md: the host's placed word, LoadRom, the self-jump, Reset -/

namespace Sys2Proof.Machine

/-! ## The word placed for the host -/

/-- Placing a word first makes the core ready to fetch, memory as it is, and then stores the word's two bytes at PC. -/
theorem State.placeWord_eq_storeBytes (w : Word) (s : State) :
    ∃ t : State, t.Ready ∧ t.pc.toNat + 1 ≤ 0xFFF ∧ t.mem = s.mem ∧
      s.placeWord w = t.storeBytes [highByte w, lowByte w] t.pc.toNat := by
  unfold State.placeWord
  extract_lets running ready inRange
  have hrunning : running.run = .running ∧ running.mem = s.mem := by
    unfold running
    cases hrun : s.run with
    | running => exact ⟨hrun, rfl⟩
    | halted => exact ⟨rfl, rfl⟩
  have hready : ready.Ready ∧ ready.mem = running.mem := by
    unfold ready
    cases hawait : running.await with
    | true => exact ⟨⟨hrunning.1, rfl⟩, rfl⟩
    | false => exact ⟨⟨hrunning.1, hawait⟩, rfl⟩
  have hinRange : inRange.Ready ∧ inRange.pc.toNat + 1 ≤ 0xFFF ∧ inRange.mem = ready.mem := by
    unfold inRange
    cases hcheck : checkRange ready.pc.toNat 2 with
    | none => exact ⟨hready.1, (checkRange_eq_none _ _).1 hcheck, rfl⟩
    | some e => exact ⟨hready.1, by simp [Config.progBase], rfl⟩
  obtain ⟨hfetches, hpc, hmem⟩ := hinRange
  exact ⟨inRange, hfetches, hpc, hmem.trans (hready.2.trans hrunning.2), rfl⟩

/-- Stores touch neither RUN nor AWAIT. -/
theorem State.ready_storeBytes {s : State} (hs : s.Ready) (bytes : List Byte) (a : Nat) :
    (s.storeBytes bytes a).Ready := by
  simpa [State.Ready] using hs

/-- A word whose two bytes are stored at PC is the word fetched there (20_memory.md R34). -/
theorem State.fetch_storeBytes_word {s : State} (hs : s.MemCanonical) (hpc : s.pc.toNat + 1 ≤ 0xFFF) (w : Word) :
    (s.storeBytes [highByte w, lowByte w] s.pc.toNat).fetch = .ok w := by
  have hread := State.memRead_storeBytes [highByte w, lowByte w] s.pc.toNat s hs (by simp; omega)
  rw [State.fetch_of_le (by simpa using hpc), State.storeBytes_pc, hread, hread]
  simp [wordOfBytes_bytes]

/-- Settles O56: the placed state is ready and fetches the word, so its Step is the execution of what the word decodes
to. -/
theorem placedWordRunsNext : Obligations.PlacedWordRunsNext := by
  intro s w i hs hd
  rw [State.withFetchWord, tableWord_toNat]
  obtain ⟨t, hready, hpc, hmem, hplace⟩ := s.placeWord_eq_storeBytes w
  have ht : t.MemCanonical := by rwa [State.MemCanonical, hmem]
  rw [hplace]
  exact step_eq_exec (State.ready_storeBytes hready _ _) (State.fetch_storeBytes_word ht hpc w) hd

/-! ## LoadRom -/

/-- Settles O59: past 3584 bytes neither the copy nor the acceptance is reached; an image that fits is stored whole,
and its last byte is at 0xFFF or below. -/
theorem loadRomCopiesOrRejects : Obligations.LoadRomCopiesOrRejects := by
  refine fun bytes s => ⟨fun hlong => ⟨if_pos hlong, if_pos hlong⟩, fun hfits hs => ?_⟩
  have hload : transact (.loadRom bytes) s = s.storeBytes bytes 0x200 := if_neg (Nat.not_lt.2 hfits)
  rw [hload]
  refine ⟨fun k hk => ?_, fun _ hk => State.memRead_storeBytes_out bytes _ s hk, State.frame_storeBytes bytes _ s,
    if_neg (Nat.not_lt.2 hfits)⟩
  rw [State.memRead_storeBytes bytes _ s hs (by omega), if_pos (by omega), Nat.add_sub_cancel_left]

/-! ## The self-jump -/

theorem State.setPc_self (s : State) : s.setPc s.pc = s := rfl

/-- An instruction other than SYS that leaves a ready core running ends its Step with `Ok` (30_encoding.md R58). -/
theorem stepResult_of_running {s t : State} {w : Word} {i : Instr} (hs : s.Ready) (hf : s.fetch = .ok w)
    (hd : decodeWord w = .ok i) (hi : isSys i = false) (hexec : exec i s = .next t) (hrun : t.run = .running) :
    stepResult s = .ok := by
  have hstate : stepState s = t := stepState_of_step ((step_eq_exec hs hf hd).trans hexec)
  rw [stepResult, State.nextAction_execute.2 ⟨hs, hf, hd⟩]
  simp [hi, hstate, execResult, hrun]

/-- Settles O9: the jump writes to PC the value it holds. -/
theorem selfJumpHangs : Obligations.SelfJumpHangs := by
  intro s nnn hs hf hpc
  have htarget : addrWord nnn = s.pc := BitVec.eq_of_toNat_eq ((addrWord_toNat nnn).trans hpc.symm)
  have hexec : exec (.jp nnn) s = .next s := by rw [exec, execJp, htarget, State.setPc_self]
  exact ⟨(step_eq_exec hs hf (decode_jp nnn)).trans hexec,
    stepResult_of_running hs hf (decode_jp nnn) rfl hexec hs.1⟩

/-! ## Reset -/

/-- After a Reset memory reads as its reset contents: nothing is listed (log entry 7). -/
theorem State.memRead_resetCore (s : State) (a : Nat) :
    s.resetCore.memRead a = Memory.resetByte Config.fontData a := rfl

theorem State.getV_resetCore (s : State) (r : Nibble) : s.resetCore.getV r = 0 :=
  Vector.getElem_replicate r.isLt

theorem State.getKey_resetCore (s : State) (k : Nibble) : s.resetCore.getKey k = false :=
  Vector.getElem_replicate k.isLt

theorem State.stack_resetCore (s : State) (k : Fin Config.stackDepth) : s.resetCore.stack[k] = 0 :=
  Vector.getElem_replicate k.isLt

/-- Settles O58: the elements read at an index by their lemmas, the font for every FONT_DATA, and the others as
`State.reset` writes them. -/
theorem resetSetsEveryElement : Obligations.ResetSetsEveryElement :=
  fun s => ⟨rfl, rfl, rfl, rfl, Framebuffer.cell_clear,
    fun d => (s.memRead_resetCore _).trans (Memory.resetByte_font Config.fontData d.isLt),
    fun a ha => (s.memRead_resetCore a).trans (Memory.resetByte_outside Config.fontData ha),
    s.getV_resetCore, rfl, s.stack_resetCore, rfl, s.getKey_resetCore, rfl, rfl, rfl, rfl⟩

end Sys2Proof.Machine
